-- ==== Sys2Proof/Word.lean ====
section
/-! DEFINITION. The widths of the core's quantities (spec/00_scope.md R6, R9; spec/30_encoding.md R91). Every value is
unsigned; arithmetic on a bit vector wraps, which is what R182 and R24 ask of bytes and of addresses. -/

namespace Sys2Proof

/-- A memory byte, a general register, a timer, an immediate kk. -/
abbrev Byte := BitVec 8

/-- An instruction word, the index register I, the program counter PC, a return address. -/
abbrev Word := BitVec 16

/-- The address field nnn of an instruction word. -/
abbrev Imm12 := BitVec 12

/-- A general register's number, and the value of WAIT_REG (D11: four bits). -/
abbrev Reg := Fin 16

/-- The sprite height n of Dxyn, 0 to 15 rows. -/
abbrev Count := Fin 16

end Sys2Proof
end

