-- ==== Sys2Proof/Decode.lean ====
section
/-! DEFINITION. From words to instructions and back: the fields of a word (spec/30_encoding.md R91), the decode procedure
(R95), the encoder (R92, R94), and the opcode table itself as a list of rows (R94), against which statements hold the
decoder. -/

namespace Sys2Proof

/-! ### Fields, R91 -/

/-- `op` = w[15:12]. -/
def fieldOp (w : Word) : Fin 16 := (w.extractLsb' 12 4).toFin
/-- `x` = w[11:8]. -/
def fieldX (w : Word) : Fin 16 := (w.extractLsb' 8 4).toFin
/-- `y` = w[7:4]. -/
def fieldY (w : Word) : Fin 16 := (w.extractLsb' 4 4).toFin
/-- `n` = w[3:0]. -/
def fieldN (w : Word) : Fin 16 := (w.extractLsb' 0 4).toFin
/-- `kk` = w[7:0]. -/
def fieldKk (w : Word) : Byte := w.extractLsb' 0 8
/-- `nnn` = w[11:0]. -/
def fieldNnn (w : Word) : Imm12 := w.extractLsb' 0 12

/-! ### Decode, R95 -/

/-- Why a word or a list of bytes gives no instruction. -/
inductive Reject where
  /-- the word matches none of the 34 patterns; a defined no-op, `NOP w` (R96) -/
  | unrecognised (w : Word)
  /-- fewer than two bytes are left, so there is no instruction word (R90) -/
  | truncated
deriving DecidableEq, Repr

/-- The group op = 0: "compare the whole word with 0x00E0 and 0x00EE" (R95). -/
def decodeZ (w : Word) : Except Reject Instr :=
  if w = 0x00E0 then .ok .cls else if w = 0x00EE then .ok .ret else .error (.unrecognised w)

/-- The group op = 8: "switch on `n` in {0,...,7,E}" (R95). -/
def decode8 (w : Word) : Except Reject Instr :=
  match (fieldN w).val with
  | 0x0 => .ok (.ldReg (fieldX w) (fieldY w))
  | 0x1 => .ok (.orReg (fieldX w) (fieldY w))
  | 0x2 => .ok (.andReg (fieldX w) (fieldY w))
  | 0x3 => .ok (.xorReg (fieldX w) (fieldY w))
  | 0x4 => .ok (.addReg (fieldX w) (fieldY w))
  | 0x5 => .ok (.subReg (fieldX w) (fieldY w))
  | 0x6 => .ok (.shr (fieldX w) (fieldY w))
  | 0x7 => .ok (.subnReg (fieldX w) (fieldY w))
  | 0xE => .ok (.shl (fieldX w) (fieldY w))
  | _   => .error (.unrecognised w)

/-- The group op = E: "switch on `kk`" (R95). -/
def decodeE (w : Word) : Except Reject Instr :=
  match (fieldKk w).toNat with
  | 0x9E => .ok (.skp (fieldX w))
  | 0xA1 => .ok (.sknp (fieldX w))
  | _    => .error (.unrecognised w)

/-- The group op = F: "switch on `kk`" (R95). -/
def decodeF (w : Word) : Except Reject Instr :=
  match (fieldKk w).toNat with
  | 0x07 => .ok (.ldVxDt (fieldX w))
  | 0x0A => .ok (.ldVxK (fieldX w))
  | 0x15 => .ok (.ldDtVx (fieldX w))
  | 0x18 => .ok (.ldStVx (fieldX w))
  | 0x1E => .ok (.addI (fieldX w))
  | 0x29 => .ok (.ldF (fieldX w))
  | 0x33 => .ok (.ldB (fieldX w))
  | 0x55 => .ok (.stRegs (fieldX w))
  | 0x65 => .ok (.ldRegs (fieldX w))
  | _    => .error (.unrecognised w)

/-- R95: "switch on `op`". Total: a word that selects no row is rejected by name. -/
def decodeWord (w : Word) : Except Reject Instr :=
  match (fieldOp w).val with
  | 0x0 => decodeZ w
  | 0x1 => .ok (.jp (fieldNnn w))
  | 0x2 => .ok (.call (fieldNnn w))
  | 0x3 => .ok (.seImm (fieldX w) (fieldKk w))
  | 0x4 => .ok (.sneImm (fieldX w) (fieldKk w))
  | 0x5 => if (fieldN w).val = 0 then .ok (.seReg (fieldX w) (fieldY w)) else .error (.unrecognised w)
  | 0x6 => .ok (.ldImm (fieldX w) (fieldKk w))
  | 0x7 => .ok (.addImm (fieldX w) (fieldKk w))
  | 0x8 => decode8 w
  | 0x9 => if (fieldN w).val = 0 then .ok (.sneReg (fieldX w) (fieldY w)) else .error (.unrecognised w)
  | 0xA => .ok (.ldI (fieldNnn w))
  | 0xB => .ok (.jpV0 (fieldNnn w))
  | 0xC => .ok (.rnd (fieldX w) (fieldKk w))
  | 0xD => .ok (.drw (fieldX w) (fieldY w) (fieldN w))
  | 0xE => decodeE w
  | 0xF => decodeF w
  | _   => .error (.unrecognised w)

/-- R62: the byte at the lower address is the high byte of the word. -/
def wordOfBytes (hi lo : Byte) : Word := hi ++ lo

/-- R64: the two bytes of a word in the order they stand in memory. -/
def bytesOfWord (w : Word) : List Byte := [w.extractLsb' 8 8, w.extractLsb' 0 8]

/-- Decode the front of a byte stream and give back the rest; every instruction is two bytes (R90). -/
def decodeBytes : List Byte → Except Reject (Instr × List Byte)
  | hi :: lo :: rest =>
    match decodeWord (wordOfBytes hi lo) with
    | .ok i    => .ok (i, rest)
    | .error r => .error r
  | _ => .error .truncated

/-- The host's view of the decoder: the bits of an instruction as spec/opcode_table.json numbers them, laid out as the
hardware stores them. An instruction is one word, so bits from 16 up (and from `nbits` up) do not exist. -/
def decodeTableWord (nbits w : Nat) : Option Instr :=
  match decodeBytes (bytesOfWord (BitVec.ofNat 16 (w % 2 ^ nbits))) with
  | .ok (i, _) => some i
  | .error _   => none

/-! ### Encode, R92 and R94 -/

/-- A register number or a count as four bits. -/
def nibble (a : Fin 16) : BitVec 4 := BitVec.ofFin a

/-- Format A: op, nnn. -/
def formatA (op : BitVec 4) (nnn : Imm12) : Word := op ++ nnn
/-- Format I: op, x, kk. -/
def formatI (op : BitVec 4) (x : Reg) (kk : Byte) : Word := op ++ nibble x ++ kk
/-- Format R: op, x, y, minor opcode; format D is the same with the count n in the last place. -/
def formatR (op : BitVec 4) (x y : Reg) (minor : BitVec 4) : Word := op ++ nibble x ++ nibble y ++ minor
/-- Format X: op, x, 8-bit minor opcode. -/
def formatX (op : BitVec 4) (x : Reg) (minor : Byte) : Word := op ++ nibble x ++ minor

/-- The word of an instruction, row by row of R94. -/
def encode : Instr → Word
  | .cls         => 0x00E0
  | .ret         => 0x00EE
  | .jp nnn      => formatA 0x1 nnn
  | .call nnn    => formatA 0x2 nnn
  | .seImm x kk  => formatI 0x3 x kk
  | .sneImm x kk => formatI 0x4 x kk
  | .seReg x y   => formatR 0x5 x y 0x0
  | .ldImm x kk  => formatI 0x6 x kk
  | .addImm x kk => formatI 0x7 x kk
  | .ldReg x y   => formatR 0x8 x y 0x0
  | .orReg x y   => formatR 0x8 x y 0x1
  | .andReg x y  => formatR 0x8 x y 0x2
  | .xorReg x y  => formatR 0x8 x y 0x3
  | .addReg x y  => formatR 0x8 x y 0x4
  | .subReg x y  => formatR 0x8 x y 0x5
  | .shr x y     => formatR 0x8 x y 0x6
  | .subnReg x y => formatR 0x8 x y 0x7
  | .shl x y     => formatR 0x8 x y 0xE
  | .sneReg x y  => formatR 0x9 x y 0x0
  | .ldI nnn     => formatA 0xA nnn
  | .jpV0 nnn    => formatA 0xB nnn
  | .rnd x kk    => formatI 0xC x kk
  | .drw x y n   => formatR 0xD x y (nibble n)
  | .skp x       => formatX 0xE x 0x9E
  | .sknp x      => formatX 0xE x 0xA1
  | .ldVxDt x    => formatX 0xF x 0x07
  | .ldVxK x     => formatX 0xF x 0x0A
  | .ldDtVx x    => formatX 0xF x 0x15
  | .ldStVx x    => formatX 0xF x 0x18
  | .addI x      => formatX 0xF x 0x1E
  | .ldF x       => formatX 0xF x 0x29
  | .ldB x       => formatX 0xF x 0x33
  | .stRegs x    => formatX 0xF x 0x55
  | .ldRegs x    => formatX 0xF x 0x65

/-! ### The opcode table, R94 -/

/-- One row of R94: a word selects it when `(w & mask) = value`. -/
structure OpcodeRow where
  pattern : String
  mask    : Word
  value   : Word
deriving DecidableEq, Repr

/-- Does the word select the row? "A word selects an instruction when `(w & mask) = match`." -/
def OpcodeRow.selects (r : OpcodeRow) (w : Word) : Bool := decide (w &&& r.mask = r.value)

/-- The row of an instruction. -/
def Instr.row : Instr → OpcodeRow
  | .cls        => ⟨"00E0", 0xFFFF, 0x00E0⟩
  | .ret        => ⟨"00EE", 0xFFFF, 0x00EE⟩
  | .jp _       => ⟨"1nnn", 0xF000, 0x1000⟩
  | .call _     => ⟨"2nnn", 0xF000, 0x2000⟩
  | .seImm _ _  => ⟨"3xkk", 0xF000, 0x3000⟩
  | .sneImm _ _ => ⟨"4xkk", 0xF000, 0x4000⟩
  | .seReg _ _  => ⟨"5xy0", 0xF00F, 0x5000⟩
  | .ldImm _ _  => ⟨"6xkk", 0xF000, 0x6000⟩
  | .addImm _ _ => ⟨"7xkk", 0xF000, 0x7000⟩
  | .ldReg _ _  => ⟨"8xy0", 0xF00F, 0x8000⟩
  | .orReg _ _  => ⟨"8xy1", 0xF00F, 0x8001⟩
  | .andReg _ _ => ⟨"8xy2", 0xF00F, 0x8002⟩
  | .xorReg _ _ => ⟨"8xy3", 0xF00F, 0x8003⟩
  | .addReg _ _ => ⟨"8xy4", 0xF00F, 0x8004⟩
  | .subReg _ _ => ⟨"8xy5", 0xF00F, 0x8005⟩
  | .shr _ _    => ⟨"8xy6", 0xF00F, 0x8006⟩
  | .subnReg _ _ => ⟨"8xy7", 0xF00F, 0x8007⟩
  | .shl _ _    => ⟨"8xyE", 0xF00F, 0x800E⟩
  | .sneReg _ _ => ⟨"9xy0", 0xF00F, 0x9000⟩
  | .ldI _      => ⟨"Annn", 0xF000, 0xA000⟩
  | .jpV0 _     => ⟨"Bnnn", 0xF000, 0xB000⟩
  | .rnd _ _    => ⟨"Cxkk", 0xF000, 0xC000⟩
  | .drw _ _ _  => ⟨"Dxyn", 0xF000, 0xD000⟩
  | .skp _      => ⟨"Ex9E", 0xF0FF, 0xE09E⟩
  | .sknp _     => ⟨"ExA1", 0xF0FF, 0xE0A1⟩
  | .ldVxDt _   => ⟨"Fx07", 0xF0FF, 0xF007⟩
  | .ldVxK _    => ⟨"Fx0A", 0xF0FF, 0xF00A⟩
  | .ldDtVx _   => ⟨"Fx15", 0xF0FF, 0xF015⟩
  | .ldStVx _   => ⟨"Fx18", 0xF0FF, 0xF018⟩
  | .addI _     => ⟨"Fx1E", 0xF0FF, 0xF01E⟩
  | .ldF _      => ⟨"Fx29", 0xF0FF, 0xF029⟩
  | .ldB _      => ⟨"Fx33", 0xF0FF, 0xF033⟩
  | .stRegs _   => ⟨"Fx55", 0xF0FF, 0xF055⟩
  | .ldRegs _   => ⟨"Fx65", 0xF0FF, 0xF065⟩

/-- The 34 rows, in the order of R94. -/
def opcodeTable : List OpcodeRow := List.map Instr.row
  [ .cls, .ret, .jp 0, .call 0, .seImm 0 0, .sneImm 0 0, .seReg 0 0, .ldImm 0 0, .addImm 0 0, .ldReg 0 0, .orReg 0 0,
    .andReg 0 0, .xorReg 0 0, .addReg 0 0, .subReg 0 0, .shr 0 0, .subnReg 0 0, .shl 0 0, .sneReg 0 0, .ldI 0, .jpV0 0,
    .rnd 0 0, .drw 0 0 0, .skp 0, .sknp 0, .ldVxDt 0, .ldVxK 0, .ldDtVx 0, .ldStVx 0, .addI 0, .ldF 0, .ldB 0,
    .stRegs 0, .ldRegs 0 ]

end Sys2Proof
end

