-- ==== Sys2Proof/Config.lean ====
section
/-! DEFINITION. What is fixed for one machine, and what the outside world supplies: the two open parameters FONT and
KEYWAIT_EXITS (spec/00_scope.md section 4, spec/92_eei_decisions.md D1 and D14), the inputs of one tick (R7, R8), and the
free value that stands for an input nobody has scheduled. -/

namespace Sys2Proof

/-- The inputs sampled at the start of one tick (00_scope.md R7): the key vector, the debug flag, the random byte. -/
structure TickInput where
  /-- `keys_in[0..15]`, true = pressed (R8) -/
  keys  : Vector Bool 16
  /-- `debug`: no effect on any state or output (R131) -/
  debug : Bool
  /-- `rnd[7:0]`, read by Cxkk only (R181) -/
  rnd   : Byte
deriving DecidableEq, Repr, Inhabited

/-- The parameters of a machine. They are held in State (field `cfg`), which no step changes, so that a statement about
every state holds for every font and for both settings of KEYWAIT_EXITS (log 2 and 3). -/
structure Config where
  /-- FONT: the reset contents of addresses 0 to 79 (10_state.md R27) -/
  font         : Vector Byte 80
  /-- KEYWAIT_EXITS: whether a latched key ends the wait (40_tick_cycle.md R123) -/
  keywaitExits : Bool
deriving DecidableEq, Repr

namespace Config

/-- The default FONT of 10_state.md R27, digits 0 to F, five bytes each, top row first. PRESUMED: the spec marks these
bytes as general knowledge, not in its source (log 2, unsafe for a claim that depends on them). -/
def defaultFont : Vector Byte 80 := #v[
  0xF0, 0x90, 0x90, 0x90, 0xF0,
  0x20, 0x60, 0x20, 0x20, 0x70,
  0xF0, 0x10, 0xF0, 0x80, 0xF0,
  0xF0, 0x10, 0xF0, 0x10, 0xF0,
  0x90, 0x90, 0xF0, 0x10, 0x10,
  0xF0, 0x80, 0xF0, 0x10, 0xF0,
  0xF0, 0x80, 0xF0, 0x90, 0xF0,
  0xF0, 0x10, 0x20, 0x40, 0x40,
  0xF0, 0x90, 0xF0, 0x90, 0xF0,
  0xF0, 0x90, 0xF0, 0x10, 0xF0,
  0xF0, 0x90, 0xF0, 0x90, 0x90,
  0xE0, 0x90, 0xE0, 0x90, 0xE0,
  0xF0, 0x80, 0x80, 0x80, 0xF0,
  0xE0, 0x90, 0x90, 0x90, 0xE0,
  0xF0, 0x80, 0xF0, 0x80, 0xF0,
  0xF0, 0x80, 0xF0, 0x80, 0x80]

/-- The parameters at reset: the default font, and KEYWAIT_EXITS = false, "this hardware" (R123, D1). -/
def thisHardware : Config := { font := defaultFont, keywaitExits := false }

/-- FREE VALUE. The inputs of tick number n when the driver has scheduled none: nothing is known of them (log 1 and 16).
R181: "a claim about a program must hold for every value of `rnd` at every Cxkk". -/
opaque freeInput : Nat → TickInput

end Config

end Sys2Proof
end

