-- ==== Sys2Proof/Machine/State.lean ====
section
/-! DEFINITION. The machine's state as plain data (spec/10_state.md), the six faults (spec/60_exceptions.md R261), the
refusals, and the state after reset (R38, R300). -/

namespace Sys2Proof.Machine

/-- The six faults of R261. Each ends the tick with no successor state (R262), which is safe: the model stops where the
spec leaves the rest unspecified. `fetchedAt` is the record's `at`, the address the faulting instruction was fetched from;
the last argument is its `info`. -/
inductive Fault where
  /-- code 1. Raised by the tick's fetch when PC >= 0xFFF; `at` and `info` are both that PC (R126). Safe (D4). -/
  | fetchOutOfRange (pc : Word)
  /-- code 2. Raised by Dxyn and Fx65 on a byte read at an address of 4096 or more (R63). Safe (D4). -/
  | memReadOutOfRange (fetchedAt : Word) (addr : Nat)
  /-- code 3. Raised by Fx33 and Fx55 on a byte write at an address of 4096 or more (R63). Safe (D4). -/
  | memWriteOutOfRange (fetchedAt : Word) (addr : Nat)
  /-- code 4. Raised by Ex9E and ExA1 when V[x] >= 16 (R240, R241). Safe (D5). -/
  | keyIndexOutOfRange (fetchedAt : Word) (key : Byte)
  /-- code 5. Raised by 00EE when SP = 0 (R150). Safe (D3). -/
  | stackUnderflow (fetchedAt : Word)
  /-- code 6. Raised by 00EE when SP - 1 >= 16 (R150). Safe (D3). -/
  | stackSlotOutOfRange (fetchedAt : Word) (slot : Nat)
deriving DecidableEq, Repr

/-- The refusals. No tick and no instruction of this model answers one: they are the load port's (R304 to R306, D18), and
the name the host keeps for an instruction without a meaning. -/
inductive Refusal where
  /-- Raised by an arm of exec for an instruction that has no meaning yet; no arm of this model does. Safe. -/
  | notModelled (mnemonic : String)
  /-- Raised by `State.load` on an image of zero bytes, a failed load (R306, U14). Safe. -/
  | imageEmpty
  /-- Raised by `State.load` on an image of more than 3584 bytes (R305, U13). Safe. -/
  | imageTooLong (length : Nat)
  /-- Raised by `State.load` on a machine that is not in its reset state (R304), a second load among
  them (U17). Safe. -/
  | loadAfterReset
deriving DecidableEq, Repr

/-- MEM, as the bytes that differ from the reset contents: (address, byte) pairs, addresses strictly rising, no entry
equal to what the address reads as at reset (`Memory.wf`). -/
abbrev Memory := List Host.Cell

/-- DISPLAY (R29): 32 rows of 64 one-bit cells; bit c of row r is the cell (r, c) (log 20). -/
abbrev Display := Vector (BitVec 64) 32

/-- Everything the spec gives the machine (R20), then the model's own fields. -/
structure State where
  /-- V[0..15] (R21) -/
  v       : Vector Byte 16
  /-- I (R23) -/
  i       : Word
  /-- PC (R24) -/
  pc      : Word
  /-- STACK[0..15] (R25) -/
  stack   : Vector Word 16
  /-- SP, a depth counter without a bound (R26) -/
  sp      : Nat
  /-- DT (R31) -/
  dt      : Byte
  /-- ST (R31) -/
  st      : Byte
  /-- MEM[0..4095] (R28) -/
  mem     : Memory
  /-- DISPLAY[0..31][0..63] (R29) -/
  display : Display
  /-- CHANGED (R30) -/
  changed : Bool
  /-- KEYS[0..15] (R32) -/
  keys    : Vector Bool 16
  /-- WAITING (R33) -/
  waiting : Bool
  /-- WAIT_REG (R34) -/
  waitReg : Reg
  /-- FAULT (R35): none, or the record of the fault that halted the machine -/
  fault   : Option Fault
  /-- the model's own: the parameters FONT and KEYWAIT_EXITS, changed by no step (log 2, 3) -/
  cfg     : Config
  /-- the model's own: the inputs scheduled for the coming ticks, oldest first (log 1) -/
  inputs  : List TickInput
  /-- the model's own: the number of ticks run, which picks the free input of a tick nobody scheduled (log 1) -/
  ticks   : Nat
  /-- the model's own: a program has been loaded since reset, so that a second load is refused (U17, log 26) -/
  loaded  : Bool
  /-- the model's own: the input `rnd` of the tick in progress, read by Cxkk (R181, log 1, 16) -/
  rnd     : Byte
deriving DecidableEq, Repr

/-- R38, R300: the state after reset, for given parameters. Nothing else survives a reset (R301), and no step performs one
(log 21). The values of SP, STACK, DT, ST, DISPLAY, CHANGED, KEYS,
WAITING and WAIT_REG are the spec's decision D10 (DESIGN CHOICE, log 4); `inputs`, `ticks` and `rnd` are the model's
(log 1), and so is `loaded` (log 26). -/
def State.resetWith (cfg : Config) : State where
  v       := Vector.replicate 16 0
  i       := 0
  pc      := 0x200
  stack   := Vector.replicate 16 0
  sp      := 0
  dt      := 0
  st      := 0
  mem     := []
  display := Vector.replicate 32 0
  changed := false
  keys    := Vector.replicate 16 false
  waiting := false
  waitReg := 0
  fault   := none
  cfg     := cfg
  inputs  := []
  ticks   := 0
  loaded  := false
  rnd     := 0

/-- The machine right after reset, with this hardware's parameters (R38, R300). -/
def State.reset : State := State.resetWith Config.thisHardware

end Sys2Proof.Machine
end

