-- ==== Sys2Proof/Machine/Operands.lean ====
section
/-! DEFINITION. The operand forms (spec/30_encoding.md R93, spec/20_memory.md R73 to R75): how a field of the word, a
register's value or I becomes the number an instruction works with. -/

namespace Sys2Proof.Machine

/-- R93: `nnn` is "zero-extended to 16 bits when written to `PC` or `I`". -/
def zext16 (nnn : Imm12) : Word := nnn.setWidth 16

/-- A register's value as a 16-bit number (R157, R201, R202). -/
def zext16Byte (b : Byte) : Word := b.setWidth 16

/-- R204, R205: the registers 0..x, in that order. -/
def regsUpTo (x : Reg) : List Reg := (List.finRange 16).take (x.val + 1)

/-- R202: the base address of the glyph numbered by a whole byte, V[x] * 5. -/
def glyphAddr (b : Byte) : Word := zext16Byte b * 5

/-- R203: hundreds, tens, ones. -/
def decimalDigits (b : Byte) : List Byte :=
  [BitVec.ofNat 8 (b.toNat / 100), BitVec.ofNat 8 (b.toNat / 10 % 10), BitVec.ofNat 8 (b.toNat % 10)]

/-- R240, R241: the key numbered by a register's value; none where the vector has no such element (D5). -/
def keyNumber (b : Byte) : Option (Fin 16) := if h : b.toNat < 16 then some ⟨b.toNat, h⟩ else none

/-- R74: a row coordinate, reduced modulo 32. -/
def wrapRow (a : Nat) : Fin 32 := Fin.ofNat 32 a

/-- R74: a column coordinate, reduced modulo 64. -/
def wrapCol (a : Nat) : Fin 64 := Fin.ofNat 64 a

/-- R221: bit j of a sprite byte counted from the left, `(b >> (7 - j)) & 1`. PRESUMED (D9): that j = 0 is the most
significant bit is general knowledge (log 13). -/
def spriteBit (b : Byte) (j : Nat) : Bool := b.getLsbD (7 - j)

end Sys2Proof.Machine
end

