-- ==== Sys2Proof/Machine/Flags.lean ====
section
/-! DEFINITION. The values the flag register VF receives (spec/10_state.md R22), each from the operands its rule names. -/

namespace Sys2Proof.Machine

/-- A flag is the byte 1 or 0. -/
def flagByte (c : Bool) : Byte := if c then 1 else 0

/-- R176: 1 "if the 9-bit sum exceeded 255, else 0". -/
def carryFlag (a b : Byte) : Byte := flagByte (decide (a.toNat + b.toNat > 255))

/-- R177, R179: 1 if a > b else 0, strict and unsigned: equal operands give 0 (spec/90_conflicts.md C6). -/
def greaterFlag (a b : Byte) : Byte := flagByte (decide (a.toNat > b.toNat))

/-- R178: the least significant bit. -/
def lowBitFlag (a : Byte) : Byte := a &&& 1

/-- R180: the most significant bit, `(a >> 7) & 1`. -/
def highBitFlag (a : Byte) : Byte := (a >>> 7) &&& 1

/-- R201: 1 when the new I is strictly greater than 0x0F00. The literal is the source's, unaudited (U10, log 25). -/
def indexFlag (i : Word) : Byte := flagByte (decide (i.toNat > 0x0F00))

end Sys2Proof.Machine
end

