-- ==== Sys2Proof/Machine/Ops.lean ====
section
/-! DEFINITION. The named operations over memory, registers, stack, display and keys that the meanings share, and raising
a fault (spec/60_exceptions.md R261, R262): this hardware's one way to leave the normal course of a tick. It has no trap
entry and no trap return (R264, R265). -/

namespace Sys2Proof.Machine

/-- What a tick or an instruction ends in. -/
abbrev Result := Host.Outcome State Fault Refusal

/-! ### Memory -/

/-- R28: what an address that nothing has written reads as: FONT below 80, zero elsewhere. -/
def Memory.unlisted (cfg : Config) (a : Nat) : Byte := if h : a < 80 then cfg.font[a] else 0

/-- The byte at an address. -/
def Memory.read (cfg : Config) (a : Nat) : Memory → Byte
  | []          => Memory.unlisted cfg a
  | (b, w) :: m => if a = b then w else Memory.read cfg a m

/-- Put a byte at an address and keep the canonical form: a byte equal to the reset contents leaves no entry. -/
def Memory.write (cfg : Config) (a : Nat) (w : Byte) : Memory → Memory
  | [] => if w = Memory.unlisted cfg a then [] else [(a, w)]
  | (b, u) :: m =>
    if a < b then
      if w = Memory.unlisted cfg a then (b, u) :: m else (a, w) :: (b, u) :: m
    else if a = b then
      if w = Memory.unlisted cfg a then m else (a, w) :: m
    else (b, u) :: Memory.write cfg a w m

/-- Is an address above an exclusive lower bound, if there is one? -/
def Memory.above : Option Nat → Nat → Bool
  | none, _   => true
  | some l, a => decide (l < a)

/-- The canonical form: every address is above `lo` (an exclusive bound, none at the head of the list) and below 4096,
they rise strictly, and no entry repeats the reset contents. -/
def Memory.wfFrom (cfg : Config) (lo : Option Nat) : Memory → Bool
  | [] => true
  | (a, w) :: m =>
    Memory.above lo a && decide (a < 4096)
      && decide (w ≠ Memory.unlisted cfg a) && Memory.wfFrom cfg (some a) m

/-- The memory is in canonical form, so equal memories are equal lists. -/
def Memory.wf (cfg : Config) (m : Memory) : Bool := Memory.wfFrom cfg none m

/-- Bytes at consecutive addresses, last one first, so that a fresh block is built from its end. -/
def Memory.writeBlock (cfg : Config) : Nat → List Byte → Memory → Memory
  | _, [], m      => m
  | a, w :: ws, m => Memory.write cfg a w (Memory.writeBlock cfg (a + 1) ws m)

/-- MEM[a] (R28). -/
def State.peek (s : State) (a : Nat) : Byte := Memory.read s.cfg a s.mem

/-- MEM[a] <- w, for an address in range. -/
def State.poke (s : State) (a : Nat) (w : Byte) : State := { s with mem := Memory.write s.cfg a w s.mem }

/-! ### Faults -/

/-- The address the instruction in execution was fetched from: during Execute PC "already holds" it plus 2 (R24, R127). -/
def State.fetchedAt (s : State) : Word := s.pc - 2

/-- R261, R262: stop the tick with a fault record; there is no successor state. -/
def State.raise (s : State) (cause : Word → Fault) : Result := .fault (cause s.fetchedAt)

/-- R262: `FAULT <- (code, at, info)`, the machine as it stands halted after a tick answered `.fault f`. Nothing but the
latch itself may be relied on in it (U11). -/
def State.latchFault (s : State) (f : Fault) : State := { s with fault := some f }

/-! ### Registers and index -/

/-- V[x] (R21). -/
def State.getV (s : State) (x : Reg) : Byte := s.v[x]

/-- V[x] <- w; no register is hardwired (R21). -/
def State.setV (s : State) (x : Reg) (w : Byte) : State := { s with v := s.v.set x w }

/-- VF <- w: the same register as V[15] (R22). -/
def State.setVF (s : State) (w : Byte) : State := s.setV 15 w

/-- I <- w (R23). -/
def State.setI (s : State) (w : Word) : State := { s with i := w }

/-- R73: the address of the k-th byte an instruction touches, I + k without truncation (R63). -/
def State.effAddr (s : State) (k : Nat) : Nat := s.i.toNat + k

/-! ### Program counter -/

/-- PC <- target. -/
def State.jump (s : State) (target : Word) : State := { s with pc := target }

/-- R127: the default advance by 2; R130: a skip is one more of the same. Modulo 2^16 (R24). -/
def State.advance (s : State) : State := { s with pc := s.pc + 2 }

/-- R130: skip the next word when the condition holds. -/
def State.skipIf (s : State) (c : Bool) : State := if c then s.advance else s

/-! ### Return stack -/

/-- R152: store a return address if there is a slot for it, and count the call in any case (D2). -/
def State.pushReturn (s : State) (w : Word) : State :=
  if h : s.sp < 16 then { s with stack := s.stack.set s.sp w, sp := s.sp + 1 } else { s with sp := s.sp + 1 }

/-- R150: step back one slot and take its address; the two faults are the spec's decision D3. -/
def State.popReturn (s : State) : Result :=
  match s.sp with
  | 0     => s.raise .stackUnderflow
  | k + 1 =>
    if h : k < 16 then .next { s with sp := k, pc := s.stack[k] } else s.raise fun a => .stackSlotOutOfRange a k

/-! ### Data memory -/

/-- R63, R73: `n` bytes upward from an address; the first address out of range is the fault's. -/
def State.readBytes (s : State) : Nat → Nat → Except Fault (List Byte)
  | _, 0     => .ok []
  | a, n + 1 =>
    if a < 4096 then (s.readBytes (a + 1) n).map (s.peek a :: ·)
    else .error (.memReadOutOfRange s.fetchedAt a)

/-- R63, R73: store bytes upward from an address; the first address out of range faults. -/
def State.storeBytes (s : State) : Nat → List Byte → Result
  | _, []      => .next s
  | a, w :: ws =>
    if a < 4096 then (s.poke a w).storeBytes (a + 1) ws else s.raise fun p => .memWriteOutOfRange p a

/-- R205: load registers, in the order listed, from an address upward; the first address out of range faults. -/
def State.loadRegs (s : State) : Nat → List Reg → Result
  | _, []      => .next s
  | a, k :: ks =>
    if a < 4096 then (s.setV k (s.peek a)).loadRegs (a + 1) ks else s.raise fun p => .memReadOutOfRange p a

/-! ### Keys -/

/-- R240, R241: what the key numbered by a byte gives to a continuation, or the fault KeyIndexOutOfRange (D5). -/
def State.withKey (s : State) (b : Byte) (next : Bool → State) : Result :=
  match keyNumber b with
  | some k => .next (next s.keys[k])
  | none   => s.raise fun a => .keyIndexOutOfRange a b

/-- R122: the least pressed key. -/
def State.lowestKey (s : State) : Option (Fin 16) := (List.finRange 16).find? fun k => s.keys[k]

/-! ### Display -/

/-- The cell (r, c) (R29). -/
def Display.cell (d : Display) (r : Fin 32) (c : Fin 64) : Bool := d[r].getLsbD c

/-- Every cell 0 (R220). -/
def Display.blank : Display := Vector.replicate 32 0

/-- R221: `DISPLAY[r][c] <- DISPLAY[r][c] ^ bit`. -/
def Display.xorCell (d : Display) (r : Fin 32) (c : Fin 64) (bit : Bool) : Display :=
  if bit then d.set r (d[r] ^^^ BitVec.twoPow 64 c) else d

/-- A display in the course of a draw, and the collision flag gathered so far. -/
structure Canvas where
  display : Display
  hit     : Bool
deriving DecidableEq, Repr

/-- R221, one bit: gather `bit & DISPLAY[row][col]`, then flip the cell; the coordinates wrap (R74). -/
def Canvas.plot (p : Canvas) (row col : Nat) (bit : Bool) : Canvas where
  display := p.display.xorCell (wrapRow row) (wrapCol col) bit
  hit     := p.hit || (bit && p.display.cell (wrapRow row) (wrapCol col))

/-- R221, one sprite byte: `for j in 0..7`, the bit j at column cx + j. -/
def Canvas.drawByte (p : Canvas) (row cx : Nat) (b : Byte) : Canvas :=
  (List.range 8).foldl (fun p j => p.plot row (cx + j) (spriteBit b j)) p

/-- R221, the sprite: successive bytes on successive rows. -/
def Canvas.drawRows (p : Canvas) (row cx : Nat) : List Byte → Canvas
  | []      => p
  | b :: bs => (p.drawByte row cx b).drawRows (row + 1) cx bs

end Sys2Proof.Machine
end

