-- ==== Sys2Proof/Machine/Alu.lean ====
section
/-! DEFINITION. Register loads and arithmetic (spec/42_load_alu.md). The statements of a rule take effect in the order it
writes them, each reading the registers as the one before left them (R183, decision D7, log 11); this shows only when x or
y is 15. -/

namespace Sys2Proof.Machine

/-- R170, 6xkk. -/
def execLdImm (x : Reg) (kk : Byte) (s : State) : Result := .next (s.setV x kk)

/-- R171, 7xkk: modulo 256; the flag register is not modified. -/
def execAddImm (x : Reg) (kk : Byte) (s : State) : Result := .next (s.setV x (s.getV x + kk))

/-- R172, 8xy0. -/
def execLdReg (x y : Reg) (s : State) : Result := .next (s.setV x (s.getV y))

/-- R173, 8xy1. -/
def execOrReg (x y : Reg) (s : State) : Result := .next (s.setV x (s.getV x ||| s.getV y))

/-- R174, 8xy2. -/
def execAndReg (x y : Reg) (s : State) : Result := .next (s.setV x (s.getV x &&& s.getV y))

/-- R175, 8xy3. -/
def execXorReg (x y : Reg) (s : State) : Result := .next (s.setV x (s.getV x ^^^ s.getV y))

/-- R176, 8xy4: the sum of the operands on entry, then the carry; with x = 15 the carry overwrites the sum. -/
def execAddReg (x y : Reg) (s : State) : Result :=
  .next ((s.setV x (s.getV x + s.getV y)).setVF (carryFlag (s.getV x) (s.getV y)))

/-- V[x] <- V[a] - V[b], modulo 256, of the registers as they stand. -/
def State.subInto (s : State) (x a b : Reg) : State := s.setV x (s.getV a - s.getV b)

/-- R177, 8xy5: the flag first, then the difference of the registers as the flag left them. -/
def execSubReg (x y : Reg) (s : State) : Result :=
  .next ((s.setVF (greaterFlag (s.getV x) (s.getV y))).subInto x x y)

/-- R179, 8xy7: as 8xy5 with the operands exchanged; the destination is still V[x]. -/
def execSubnReg (x y : Reg) (s : State) : Result :=
  .next ((s.setVF (greaterFlag (s.getV y) (s.getV x))).subInto x y x)

/-- V[x] <- f(V[x]) of the register as it stands. -/
def State.modifyV (s : State) (x : Reg) (f : Byte → Byte) : State := s.setV x (f (s.getV x))

/-- R178, 8xy6: the flag first, then the logical shift by one; y is ignored. -/
def execShr (x _y : Reg) (s : State) : Result :=
  .next ((s.setVF (lowBitFlag (s.getV x))).modifyV x (· >>> 1))

/-- R180, 8xyE: the flag first, then the shift by one; y is ignored. -/
def execShl (x _y : Reg) (s : State) : Result :=
  .next ((s.setVF (highBitFlag (s.getV x))).modifyV x (· <<< 1))

/-- R181, Cxkk: the tick's random byte AND kk. The byte is a free input (D13, log 16). -/
def execRnd (x : Reg) (kk : Byte) (s : State) : Result := .next (s.setV x (s.rnd &&& kk))

end Sys2Proof.Machine
end

