-- ==== Sys2Proof/Machine/Control.lean ====
section
/-! DEFINITION. Control transfer (spec/41_control_flow.md). PC on entry is the fetched address plus 2 (R127). -/

namespace Sys2Proof.Machine

/-- R150, 00EE. -/
def execRet (s : State) : Result := s.popReturn

/-- R151, 1nnn: `PC <- zext_16(nnn)`. -/
def execJp (nnn : Imm12) (s : State) : Result := .next (s.jump (zext16 nnn))

/-- R152, 2nnn: the address pushed is the already advanced PC. -/
def execCall (nnn : Imm12) (s : State) : Result := .next ((s.pushReturn s.pc).jump (zext16 nnn))

/-- R153, 3xkk. -/
def execSeImm (x : Reg) (kk : Byte) (s : State) : Result := .next (s.skipIf (s.getV x == kk))

/-- R154, 4xkk. -/
def execSneImm (x : Reg) (kk : Byte) (s : State) : Result := .next (s.skipIf (s.getV x != kk))

/-- R155, 5xy0. -/
def execSeReg (x y : Reg) (s : State) : Result := .next (s.skipIf (s.getV x == s.getV y))

/-- R156, 9xy0. -/
def execSneReg (x y : Reg) (s : State) : Result := .next (s.skipIf (s.getV x != s.getV y))

/-- R157, Bnnn: the offset is V[0] whatever the word's nibble x is, and the sum is not masked to 12 bits (D11). -/
def execJpV0 (nnn : Imm12) (s : State) : Result := .next (s.jump (zext16Byte (s.getV 0) + zext16 nnn))

/-- R96: an unrecognised word changes nothing beyond what the tick has already done. -/
def execNop (_w : Word) (s : State) : Result := .next s

end Sys2Proof.Machine
end

