-- ==== Sys2Proof/Machine/Display.lean ====
section
/-! DEFINITION. Display instructions (spec/44_display.md). -/

namespace Sys2Proof.Machine

/-- R223: the display after a display instruction, with CHANGED set. -/
def State.shown (s : State) (d : Display) : State := { s with display := d, changed := true }

/-- R220, 00E0: every cell 0; CHANGED is set even if nothing differed. -/
def execCls (s : State) : Result := .next (s.shown Display.blank)

/-- R221, Dxyn. The coordinates are the registers' values on entry and VF starts from 0 (D8, log 12). The sprite bytes are
read before the first cell is drawn: no cell is memory and a fault has no successor state, so the order of a read and a
draw cannot be seen (R222, log 23). -/
def execDrw (x y : Reg) (n : Count) (s : State) : Result :=
  match s.readBytes (s.effAddr 0) n with
  | .error f => .fault f
  | .ok bs =>
    let p := Canvas.drawRows ⟨s.display, false⟩ (s.getV y).toNat (s.getV x).toNat bs
    .next ((s.setVF (flagByte p.hit)).shown p.display)

end Sys2Proof.Machine
end

