-- ==== Sys2Proof/Machine/Index.lean ====
section
/-! DEFINITION. Index register and memory instructions (spec/43_index_memory.md). None of those that access memory changes
I (R206). -/

namespace Sys2Proof.Machine

/-- R200, Annn. -/
def execLdI (nnn : Imm12) (s : State) : Result := .next (s.setI (zext16 nnn))

/-- R201, Fx1E: I + V[x] modulo 2^16 (D12), then VF from the new I; V[x] is read before the flag is written. -/
def execAddI (x : Reg) (s : State) : Result :=
  .next ((s.setI (s.i + zext16Byte (s.getV x))).setVF (indexFlag (s.i + zext16Byte (s.getV x))))

/-- R202, Fx29: the whole register times 5. -/
def execLdF (x : Reg) (s : State) : Result := .next (s.setI (glyphAddr (s.getV x)))

/-- R203, Fx33: hundreds, tens, ones to I, I+1, I+2. -/
def execLdB (x : Reg) (s : State) : Result := s.storeBytes (s.effAddr 0) (decimalDigits (s.getV x))

/-- R204, Fx55: V[0..x] to I..I+x. -/
def execStRegs (x : Reg) (s : State) : Result := s.storeBytes (s.effAddr 0) ((regsUpTo x).map s.getV)

/-- R205, Fx65: V[0..x] from I..I+x. -/
def execLdRegs (x : Reg) (s : State) : Result := s.loadRegs (s.effAddr 0) (regsUpTo x)

end Sys2Proof.Machine
end

