-- ==== Sys2Proof/Machine/Keypad.lean ====
section
/-! DEFINITION. Keypad and timer instructions (spec/45_keypad_timers.md). -/

namespace Sys2Proof.Machine

/-- R240, Ex9E: skip if the key numbered by V[x] is pressed in this tick's vector. -/
def execSkp (x : Reg) (s : State) : Result := s.withKey (s.getV x) fun down => s.skipIf down

/-- R241, ExA1: skip if that key is released. -/
def execSknp (x : Reg) (s : State) : Result := s.withKey (s.getV x) fun down => s.skipIf !down

/-- R242, Fx07: the value after this tick's decrement. -/
def execLdVxDt (x : Reg) (s : State) : Result := .next (s.setV x s.dt)

/-- R243, Fx0A: enter the key wait; the keys are not looked at in this tick. -/
def execLdVxK (x : Reg) (s : State) : Result := .next { s with waiting := true, waitReg := x }

/-- R244, Fx15. -/
def execLdDtVx (x : Reg) (s : State) : Result := .next { s with dt := s.getV x }

/-- R245, Fx18. -/
def execLdStVx (x : Reg) (s : State) : Result := .next { s with st := s.getV x }

end Sys2Proof.Machine
end

