-- ==== Sys2Proof/Machine/Tick.lean ====
section
/-! DEFINITION. One tick (spec/40_tick_cycle.md R120): latch, then either the key-wait scan or timers, fetch, advance and
execute; the outputs are a function of the state it leaves. -/

namespace Sys2Proof.Machine

/-- The inputs of the coming tick: the oldest scheduled ones, or free values when none are scheduled (log 1). -/
def State.input (s : State) : TickInput :=
  match s.inputs with
  | []     => Config.freeInput s.ticks
  | t :: _ => t

/-- Step 1, R121: `KEYS <- keys_in`, `CHANGED <- 0`. The tick's `rnd` is held for Execute, the inputs are used up and the
tick is counted; `debug` has no effect (R131). -/
def State.latch (s : State) : State :=
  { s with keys := s.input.keys, changed := false, rnd := s.input.rnd, inputs := s.inputs.tail, ticks := s.ticks + 1 }

/-- Step 2, R122 to R124: the lowest pressed key goes to V[WAIT_REG]; whether that ends the wait is KEYWAIT_EXITS. -/
def State.scanKeys (s : State) : State :=
  match s.lowestKey with
  | none   => s
  | some k => { s.setV s.waitReg (BitVec.ofNat 8 k) with waiting := !s.cfg.keywaitExits }

/-- R125: "decrement ... if nonzero". -/
def countdown (t : Byte) : Byte := if t = 0 then 0 else t - 1

/-- Step 3, R125: both timers, before the fetch. -/
def State.countTimers (s : State) : State := { s with dt := countdown s.dt, st := countdown s.st }

/-- R62, R126: the word at PC, high byte first; PC >= 0xFFF is the fetch fault (D4). -/
def State.fetch (s : State) : Except Fault Word :=
  if s.pc.toNat < 0xFFF then .ok (wordOfBytes (s.peek s.pc.toNat) (s.peek (s.pc.toNat + 1)))
  else .error (.fetchOutOfRange s.pc)

/-- R128: the selected row's meaning, or nothing for a word that selects none (R96). -/
def execWord (w : Word) (s : State) : Result :=
  match decodeWord w with
  | .ok i    => exec i s
  | .error _ => execNop w s

/-- Step 3, R125 to R128: timers, fetch, default advance, execute. -/
def State.runInstr (s : State) : Result :=
  match s.countTimers.fetch with
  | .ok w    => execWord w s.countTimers.advance
  | .error f => .fault f

/-- R120, the whole tick. A machine whose FAULT is set executes nothing and has no successor (R132, R35). -/
def tick (s : State) : Result :=
  match s.fault with
  | some f => .fault f
  | none   => if s.waiting then .next s.latch.scanKeys else s.latch.runInstr

/-- R7, R129: the outputs after a tick. -/
structure Outputs where
  display : Display
  changed : Bool
  beep    : Bool
deriving DecidableEq, Repr

/-- R129: "a boolean 'beep' equal to (sound timer > 0)". -/
def State.beep (s : State) : Bool := decide (s.st.toNat > 0)

/-- Step 4, R129: the output view of a state. -/
def State.outputs (s : State) : Outputs := { display := s.display, changed := s.changed, beep := s.beep }

end Sys2Proof.Machine
end

