-- ==== Sys2Proof/Machine/Step.lean ====
section
/-! DEFINITION. The step of the machine is one tick (spec/40_tick_cycle.md R120). -/

namespace Sys2Proof.Machine

/-- One tick. -/
def step (s : State) : Host.Outcome State Fault Refusal := tick s

/-- `s` with an instruction word placed where the next step fetches, and nothing in the way of that fetch: no fault
latched, no key wait, PC at an address a word fits at (the entry point 0x200 where PC is beyond 0xFFE). A program comes
to run by a load from outside the machine (R304), which this stands for (log 18). -/
def State.withFetchWord (s : State) (nbits w : Nat) : State :=
  let t := { s with fault := none, waiting := false, pc := if s.pc.toNat < 0xFFF then s.pc else 0x200 }
  { t with mem := Memory.writeBlock t.cfg t.pc.toNat (bytesOfWord (BitVec.ofNat 16 (w % 2 ^ nbits))) t.mem }

end Sys2Proof.Machine
end

