-- ==== Sys2Proof/WellFormed.lean ====
section
/-! DEFINITION. Which terms are well formed. An Instr is well formed by its types: every register number, count, byte and
address an Instr can hold is one the encoding admits (spec/30_encoding.md R93), so the checks stand where a NUMBER becomes
an operand. The other term that can be ill formed is the program image handed to the load port
(spec/70_reset_and_hazards.md R305, R306). -/

namespace Sys2Proof

/-- R93: "`x` and `y` select `V[x]` and `V[y]`", 0 to 15. -/
def Reg.check (a : Nat) : Option Reg := if h : a < 16 then some ⟨a, h⟩ else none

/-- R93: "`n` is an unsigned 4-bit count 0..15". -/
def Count.check (a : Nat) : Option Count := if h : a < 16 then some ⟨a, h⟩ else none

/-- R93: "`kk` is an unsigned 8-bit value 0..255 used as is". -/
def Byte.check (a : Nat) : Option Byte := if a < 256 then some (BitVec.ofNat 8 a) else none

/-- R93: "`nnn` is an unsigned 12-bit value 0..4095". -/
def Imm12.check (a : Nat) : Option Imm12 := if a < 4096 then some (BitVec.ofNat 12 a) else none

/-- What can be wrong with a program image (D18: the load is defined for 1 to 3584 bytes only). -/
inductive ImageFlaw where
  /-- zero bytes: a failed load (R306) -/
  | empty
  /-- more than 3584 = 4096 - 0x200 bytes (R305) -/
  | tooLong (length : Nat)
deriving DecidableEq, Repr

/-- R305, R306: the launch premise `1 <= L <= 3584`. -/
def imageFlaw (image : List Byte) : Option ImageFlaw :=
  if image.length = 0 then some .empty
  else if image.length ≤ 3584 then none
  else some (.tooLong image.length)

end Sys2Proof
end

