-- ==== Sys2Proof/Machine/Load.lean ====
section
/-! DEFINITION. The host's load port (spec/70_reset_and_hazards.md R304 to R306): from the reset state and before the first
tick, a program of 1 to 3584 bytes goes to 0x200 upward. What the document leaves contradictory or undefined is refused
(D18, U13, U14, U17; log 18, 26). -/

namespace Sys2Proof.Machine

/-- "while the core is in its reset state and before the first tick" (R7): the state is the reset state for its own
parameters, whatever inputs are scheduled. `ticks` and `loaded` are 0 and false in it, so a machine that has run a tick or
taken a program is not fresh, whatever else it holds (U17, log 26). -/
def State.isFresh (s : State) : Bool := decide (s = { State.resetWith s.cfg with inputs := s.inputs })

/-- R304: byte i of the image to MEM[0x200 + i], and nothing else; the model also notes that a program has been loaded, so
that any second load is refused (U17). -/
def State.load (image : List Byte) (s : State) : Result :=
  match imageFlaw image with
  | some .empty       => .refused .imageEmpty
  | some (.tooLong n) => .refused (.imageTooLong n)
  | none =>
    if s.isFresh then .next { s with mem := Memory.writeBlock s.cfg 0x200 image s.mem, loaded := true }
    else .refused .loadAfterReset

end Sys2Proof.Machine
end

