-- ==== Sys2Proof/Safety.lean ====
section
/-! DEFINITION. What counts as a safe run, and the terms statements are made in: when an instruction and a tick are
fault-free (spec/60_exceptions.md R267), what a tick executes, what an instruction leaves unchanged, the invariants, and
the vocabulary for the end of a run (spec/70_reset_and_hazards.md R308). -/

namespace Sys2Proof.Machine

/-- R267, per instruction: the condition under which it raises no fault. -/
def Safe (s : State) : Instr → Prop
  | .ret       => 1 ≤ s.sp ∧ s.sp ≤ 16
  | .drw _ _ n => n.val = 0 ∨ s.i.toNat + n.val - 1 ≤ 4095
  | .ldB _     => s.i.toNat ≤ 4093
  | .stRegs x  => s.i.toNat + x.val ≤ 4095
  | .ldRegs x  => s.i.toNat + x.val ≤ 4095
  | .skp x     => (s.getV x).toNat ≤ 15
  | .sknp x    => (s.getV x).toNat ≤ 15
  | _          => True

/-- The word at PC, high byte first (R62). -/
def State.wordAtPc (s : State) : Word := s.peek s.pc.toNat ++ s.peek (s.pc.toNat + 1)

/-- R267, per tick: either the tick is spent waiting, or the fetch is in range and the fetched instruction is safe. -/
def State.TickSafe (s : State) : Prop :=
  s.fault = none ∧ (s.waiting = false →
    s.pc.toNat ≤ 0xFFE ∧ ∀ i, decodeWord s.wordAtPc = .ok i → Safe s i)

/-! ### What a tick executes -/

/-- The tick from `s` executes the instruction `i`: no fault is latched, the machine is not waiting, and the word at PC is
in range and selects `i` (R120, R126, R128). -/
def State.Executes (s : State) (i : Instr) : Prop :=
  s.fault = none ∧ s.waiting = false ∧ s.pc.toNat ≤ 0xFFE ∧ decodeWord s.wordAtPc = .ok i

/-- What Execute finds in a tick from `s` (R120): the inputs latched and CHANGED cleared (R121), both timers counted down
(R125), PC past the word (R127). -/
def State.atExecute (s : State) : State :=
  { s with
    keys    := s.input.keys
    changed := false
    rnd     := s.input.rnd
    inputs  := s.inputs.tail
    ticks   := s.ticks + 1
    dt      := if s.dt = 0 then 0 else s.dt - 1
    st      := if s.st = 0 then 0 else s.st - 1
    pc      := s.pc + 2 }

/-! ### Frames -/

/-- The elements of the state an instruction may write besides the general registers. -/
inductive Part where
  | i | pc | stack | sp | dt | st | mem | display | changed | waiting | waitReg
deriving DecidableEq, Repr

/-- An element of the state is the same in both; memory is the same byte for byte. -/
def Keeps (s t : State) : Part → Prop
  | .i       => t.i = s.i
  | .pc      => t.pc = s.pc
  | .stack   => t.stack = s.stack
  | .sp      => t.sp = s.sp
  | .dt      => t.dt = s.dt
  | .st      => t.st = s.st
  | .mem     => ∀ a, t.peek a = s.peek a
  | .display => t.display = s.display
  | .changed => t.changed = s.changed
  | .waiting => t.waiting = s.waiting
  | .waitReg => t.waitReg = s.waitReg

/-- From `s` to `t` nothing changes but the elements and the general registers named. The latched keys, the fault latch
and the model's own fields are never named: no instruction writes them (R39). -/
def Frame (parts : List Part) (regs : List Reg) (s t : State) : Prop :=
  (∀ p, p ∉ parts → Keeps s t p) ∧ (∀ y, y ∉ regs → t.getV y = s.getV y) ∧
  t.keys = s.keys ∧ t.fault = s.fault ∧ t.cfg = s.cfg ∧ t.inputs = s.inputs ∧ t.ticks = s.ticks ∧
  t.rnd = s.rnd ∧ t.loaded = s.loaded

/-- R39, R22: the general registers an instruction may write, its destination and the flag register where it defines a
flag. -/
def writesV : Instr → List Reg
  | .ldImm x _ | .addImm x _ | .ldReg x _ | .orReg x _ | .andReg x _ | .xorReg x _ | .rnd x _ | .ldVxDt x => [x]
  | .addReg x _ | .subReg x _ | .shr x _ | .subnReg x _ | .shl x _ => [x, 15]
  | .drw _ _ _ | .addI _ => [15]
  | .ldRegs x => regsUpTo x
  | .cls | .ret | .jp _ | .call _ | .seImm _ _ | .sneImm _ _ | .seReg _ _ | .sneReg _ _ | .ldI _ | .jpV0 _ | .skp _
  | .sknp _ | .ldVxK _ | .ldDtVx _ | .ldStVx _ | .ldF _ | .ldB _ | .stRegs _ => []

/-- The instructions that write PC beyond the default advance: the jumps, the call, the return (R24). -/
def isJump : Instr → Bool
  | .ret | .jp _ | .call _ | .jpV0 _ => true
  | _ => false

/-- The six skips (R24, R130). -/
def isSkip : Instr → Bool
  | .seImm _ _ | .sneImm _ _ | .seReg _ _ | .sneReg _ _ | .skp _ | .sknp _ => true
  | _ => false

/-! ### Invariants -/

/-- Memory is in its canonical form. -/
def State.MemCanonical (s : State) : Prop := Memory.wf s.cfg s.mem = true

/-- R24: "the reachable values are 0 to 0x10FE"; and no entry of the return stack is more than 0x1000, the address after
the last word that can be fetched. -/
def State.PcBounded (s : State) : Prop :=
  s.pc.toNat ≤ 0x10FE ∧ ∀ k : Fin 16, s.stack[k].toNat ≤ 0x1000

/-! ### The end of a run -/

/-- R308: blocked, waiting for a key. -/
def State.Blocked (s : State) : Prop := s.fault = none ∧ s.waiting = true

/-- R308: stopped at `a`, a jump to itself. -/
def State.StoppedAt (s : State) (a : Imm12) : Prop :=
  s.fault = none ∧ s.waiting = false ∧ s.pc = a.setWidth 16 ∧ a.toNat ≤ 0xFFE ∧ decodeWord s.wordAtPc = .ok (.jp a)

/-- The state a run of `n` ticks ends in, from `s` (R308: "the state after N calls of `Tick`"). -/
def RunsTo (n : Nat) (s t : State) : Prop := Host.Core.run Sys2Proof.core n s = .next t

end Sys2Proof.Machine
end

