-- ==== Sys2Proof/Certificates/Slice0/Obligations.lean ====
section
/-! DEFINITION. The statements for the provers, one `def Obligations.<Name> : Prop` each, listed in OBLIGATIONS.json. The
terms they are made in (Executes, atExecute, Frame, TickSafe, StoppedAt, RunsTo) are in Sys2Proof/Safety.lean. A statement
that rests on a decision of the spec (D<n> of spec/92_eei_decisions.md) or on a choice of the model names it in its
docstring. -/

open Sys2Proof Sys2Proof.Machine

/-! ### Encoding -/

/-- 30_encoding.md section 5, the worked encodings, with their bytes "at increasing addresses". -/
def Obligations.DecodesTheWordsTheSpecWritesOut : Prop :=
  decodeBytes [0x60, 0x12] = .ok (.ldImm 0 0x12, []) ∧
  decodeBytes [0x12, 0x00] = .ok (.jp 0x200, []) ∧
  decodeBytes [0x00, 0xE0] = .ok (.cls, []) ∧
  decodeWord 0xD125 = .ok (.drw 1 2 5) ∧
  decodeWord 0x83A4 = .ok (.addReg 3 10) ∧
  decodeWord 0xFA65 = .ok (.ldRegs 10) ∧
  decodeWord 0xEBA1 = .ok (.sknp 11)

/-- Decode and encode agree: every instruction, with every operand, comes back from its word and from its bytes. -/
def Obligations.DecodeOfEncodeIsTheInstruction : Prop :=
  ∀ (i : Instr) (rest : List Byte),
    decodeWord (encode i) = .ok i ∧ decodeBytes (bytesOfWord (encode i) ++ rest) = .ok (i, rest)

/-- The other direction: a recognised word is the encoding of what it decodes to, so no two words share a meaning but by
a field the instruction carries (R98: "Every word has exactly one defined meaning"). -/
def Obligations.EncodeOfDecodeIsTheWord : Prop :=
  ∀ (w : Word) (i : Instr), decodeWord w = .ok i → encode i = w

/-- R94, R95: the decoder's switch and the table of (mask, match) pairs agree on every word, the 34 rows are disjoint, and
a word that selects none is rejected under its own name. -/
def Obligations.DecoderAgreesWithTheOpcodeTable : Prop :=
  opcodeTable.length = 34 ∧
  (∀ (w : Word) (i : Instr), decodeWord w = .ok i → i.row ∈ opcodeTable ∧ i.row.selects w = true) ∧
  (∀ w : Word, decodeWord w = .error (.unrecognised w) ↔ ∀ r ∈ opcodeTable, r.selects w = false) ∧
  (∀ (w : Word) (r q : OpcodeRow), r ∈ opcodeTable → q ∈ opcodeTable →
    r.selects w = true → q.selects w = true → r = q)

/-! ### The tick -/

/-- R120: a tick that executes `i` is `exec i` of the state the latch, the timers and the default advance leave. The
inputs come from the model's own queue (log 1). -/
def Obligations.StepRunsTheDecodedInstruction : Prop :=
  ∀ (s : State) (i : Instr), s.Executes i → step s = exec i s.atExecute

/-- R96: a word no row of the table selects changes nothing but the timers, PC and what every tick changes. -/
def Obligations.UnrecognisedWordOnlyAdvances : Prop :=
  ∀ s : State, s.fault = none → s.waiting = false → s.pc.toNat ≤ 0xFFE →
    (∀ r ∈ opcodeTable, r.selects s.wordAtPc = false) →
    ∃ t, step s = .next t ∧ t.pc = s.pc + 2 ∧ t.dt.toNat = s.dt.toNat - 1 ∧ t.st.toNat = s.st.toNat - 1 ∧
      t.changed = false ∧ t.keys = s.input.keys ∧ (∀ x, t.getV x = s.getV x) ∧ (∀ a, t.peek a = s.peek a) ∧
      t.i = s.i ∧ t.sp = s.sp ∧ t.stack = s.stack ∧ t.display = s.display ∧ t.waiting = false ∧
      t.waitReg = s.waitReg ∧ t.fault = none ∧ t.cfg = s.cfg

/-- Decision D4 (log 7): a fetch at 0xFFF or beyond faults, with that PC on record, and no instruction executes. -/
def Obligations.FetchBeyondMemoryFaults : Prop :=
  ∀ s : State, s.fault = none → s.waiting = false → 0xFFF ≤ s.pc.toNat → step s = .fault (.fetchOutOfRange s.pc)

/-- R121: on every tick, waiting or not, KEYS is this tick's vector and CHANGED is 0 unless the tick's own instruction sets
it; the key-wait scan and the two key skips of the same tick read that vector. -/
def Obligations.EveryTickLatchesKeysBeforeTheyAreRead : Prop :=
  (∀ s t : State, step s = .next t → t.keys = s.input.keys ∧
    ((∀ i, s.Executes i → i ≠ .cls ∧ ∀ x y n, i ≠ .drw x y n) → t.changed = false)) ∧
  (∀ (s t : State) (k : Fin 16), step s = .next t → s.waiting = true → s.input.keys[k] = true →
    (∀ j : Fin 16, j < k → s.input.keys[j] = false) → (t.getV s.waitReg).toNat = k.val) ∧
  (∀ (s t : State) (x : Reg) (h : (s.getV x).toNat < 16), step s = .next t →
    (s.Executes (.skp x) → t.pc = if s.input.keys[(s.getV x).toNat] then s.pc + 2 + 2 else s.pc + 2) ∧
    (s.Executes (.sknp x) → t.pc = if s.input.keys[(s.getV x).toNat] then s.pc + 2 else s.pc + 2 + 2))

/-- R124: a waiting tick with no key pressed changes only what step 1 changes, and step 4 produces the outputs. -/
def Obligations.WaitingTickWithoutAKeyChangesNothing : Prop :=
  ∀ s : State, s.fault = none → s.waiting = true → (∀ k : Fin 16, s.input.keys[k] = false) →
    ∃ t, step s = .next t ∧ t.keys = s.input.keys ∧ t.changed = false ∧ t.waiting = true ∧
      (∀ x, t.getV x = s.getV x) ∧ (∀ a, t.peek a = s.peek a) ∧ t.i = s.i ∧ t.pc = s.pc ∧ t.sp = s.sp ∧
      t.stack = s.stack ∧ t.dt = s.dt ∧ t.st = s.st ∧ t.display = s.display ∧ t.waitReg = s.waitReg ∧
      t.fault = none ∧ t.cfg = s.cfg ∧
      t.outputs = { display := s.display, changed := false, beep := decide (0 < s.st.toNat) }

/-- R122: a waiting tick moves no timer, fetches and executes nothing and leaves PC alone, whether or not a key is found;
the lowest pressed key of this tick's vector goes to V[WAIT_REG], and no other register changes. -/
def Obligations.WaitingTickLatchesTheLowestKey : Prop :=
  ∀ s : State, s.fault = none → s.waiting = true →
    ∃ t, step s = .next t ∧
      (∀ k : Fin 16, s.input.keys[k] = true → (∀ j : Fin 16, j < k → s.input.keys[j] = false) →
        (t.getV s.waitReg).toNat = k.val) ∧
      ((∀ k : Fin 16, s.input.keys[k] = false) → t.getV s.waitReg = s.getV s.waitReg) ∧
      (∀ x, x ≠ s.waitReg → t.getV x = s.getV x) ∧
      t.keys = s.input.keys ∧ t.changed = false ∧ (∀ a, t.peek a = s.peek a) ∧ t.i = s.i ∧ t.pc = s.pc ∧
      t.sp = s.sp ∧ t.stack = s.stack ∧ t.dt = s.dt ∧ t.st = s.st ∧ t.display = s.display ∧
      t.waitReg = s.waitReg ∧ t.fault = none ∧ t.cfg = s.cfg

/-- Decision D1 (log 3): WAITING changes by Fx0A, and by a latched key only when the parameter KEYWAIT_EXITS is true; a latched
key ends the wait then, and never otherwise. -/
def Obligations.WaitBeginsWithFx0AAndEndsByTheParameter : Prop :=
  ∀ s t : State, step s = .next t →
    (s.waiting = false → t.waiting = true → ∃ x, s.Executes (.ldVxK x) ∧ t.waitReg = x) ∧
    (s.waiting = false → (∃ x, s.Executes (.ldVxK x)) → t.waiting = true) ∧
    (s.waiting = true → (t.waiting = false ↔ s.cfg.keywaitExits = true ∧ ∃ k : Fin 16, s.input.keys[k] = true))

/-- Decision D1 (log 3), the whole life of a wait on this hardware (KEYWAIT_EXITS = false): from a waiting state the machine runs
for ever without a fault, stays waiting, and everything is frozen but KEYS, CHANGED and V[WAIT_REG]. -/
def Obligations.WaitNeverEndsOnThisHardware : Prop :=
  ∀ (n : Nat) (s : State), s.Blocked → s.cfg.keywaitExits = false →
    ∃ t, RunsTo n s t ∧ t.Blocked ∧ t.pc = s.pc ∧ t.i = s.i ∧ t.sp = s.sp ∧ t.stack = s.stack ∧
      (∀ a, t.peek a = s.peek a) ∧ t.display = s.display ∧ t.dt = s.dt ∧ t.st = s.st ∧
      t.outputs.beep = s.outputs.beep ∧ (0 < n → t.outputs.changed = false) ∧
      (∀ x, x ≠ s.waitReg → t.getV x = s.getV x) ∧ t.waitReg = s.waitReg

/-- R125: on a non-waiting tick each timer loses 1 unless it is 0, before the instruction; a value written by Fx15 or Fx18
stands at the end of its own tick, and Fx07 reads the decremented DT. -/
def Obligations.TimersCountDownOncePerExecutedTick : Prop :=
  ∀ s t : State, step s = .next t →
    (s.waiting = true → t.dt = s.dt ∧ t.st = s.st) ∧
    (s.waiting = false →
      ((∀ x, ¬ s.Executes (.ldDtVx x)) → t.dt.toNat = s.dt.toNat - 1) ∧
      ((∀ x, ¬ s.Executes (.ldStVx x)) → t.st.toNat = s.st.toNat - 1) ∧
      (∀ x, s.Executes (.ldDtVx x) → t.dt = s.getV x) ∧
      (∀ x, s.Executes (.ldStVx x) → t.st = s.getV x) ∧
      (∀ x, s.Executes (.ldVxDt x) → (t.getV x).toNat = s.dt.toNat - 1))

/-- R242 (derived there): over any run without a wait and without Fx15, DT falls by one per tick down to 0. -/
def Obligations.DelayTimerFallsByOnePerTickOfARun : Prop :=
  ∀ (n : Nat) (s t : State), RunsTo n s t →
    (∀ k u, k < n → RunsTo k s u → u.waiting = false ∧ ∀ x, ¬ u.Executes (.ldDtVx x)) →
    t.dt.toNat = s.dt.toNat - n

/-- R245 (derived there): over any run without a wait and without Fx18, the beep of the output view sounds exactly while
fewer ticks have run than ST held. -/
def Obligations.BeepSoundsWhileTheSoundTimerLasts : Prop :=
  ∀ (n : Nat) (s t : State), RunsTo n s t →
    (∀ k u, k < n → RunsTo k s u → u.waiting = false ∧ ∀ x, ¬ u.Executes (.ldStVx x)) →
    (t.outputs.beep = true ↔ n < s.st.toNat)

/-- R131, D19 (log 5): the debug flag has no effect. Two machines that differ only in the debug flags of their scheduled
inputs run alike for any number of ticks, and differ in nothing but those flags afterwards. -/
def Obligations.DebugInputIsNeverObserved : Prop :=
  ∀ (n : Nat) (s t : State) (ins : List TickInput),
    ins.map (fun a => (a.keys, a.rnd)) = s.inputs.map (fun a => (a.keys, a.rnd)) → RunsTo n s t →
    ∃ rest, rest.map (fun a => (a.keys, a.rnd)) = t.inputs.map (fun a => (a.keys, a.rnd)) ∧
      RunsTo n { s with inputs := ins } { t with inputs := rest }

/-- Decision D6 (log 6), R132: once a fault is latched the machine answers it on every tick and never has a next state. -/
def Obligations.LatchedFaultIsSticky : Prop :=
  ∀ (s : State) (f : Fault) (n : Nat), Host.Core.run Sys2Proof.core (n + 1) (s.latchFault f) = .fault f

/-- R267, R261 (decisions D3 to D6, log 6 to 9): a tick of a machine with no latched fault completes exactly when it is fault-free in
the sense of R267; no other instruction and no other condition raises a fault. -/
def Obligations.TickCompletesExactlyWhenFaultFree : Prop :=
  ∀ s : State, (∃ t, step s = .next t) ↔ s.TickSafe

/-- No instruction and no tick is ever refused. -/
def Obligations.NoInstructionIsRefused : Prop :=
  (∀ (i : Instr) (s : State) (r : Refusal), exec i s ≠ .refused r) ∧ (∀ (s : State) (r : Refusal), step s ≠ .refused r)

/-! ### Invariants -/

/-- Every step keeps memory in its canonical form: addresses rising and below 4096, no entry equal to the reset byte. -/
def Obligations.StepKeepsMemoryCanonical : Prop :=
  ∀ s t : State, s.MemCanonical → step s = .next t → t.MemCanonical

/-- R24 (derived there): every step keeps PC at most 0x10FE and the return addresses at most 0x1000. -/
def Obligations.StepKeepsPcReachable : Prop :=
  ∀ s t : State, s.PcBounded → step s = .next t → t.PcBounded

/-- The invariants hold at reset, whatever the parameters. That STACK is 0, so within PcBounded, is decision D10 (log 4). -/
def Obligations.ResetMeetsTheInvariants : Prop :=
  State.reset.MemCanonical ∧ State.reset.PcBounded ∧
  ∀ cfg : Config, (State.resetWith cfg).MemCanonical ∧ (State.resetWith cfg).PcBounded

/-- R38, R300: the reset values of every element; those of STACK, SP, DT, ST, DISPLAY, CHANGED, KEYS, WAITING and WAIT_REG
are the spec's decision D10 (log 4), FAULT's is D6 (log 6), and KEYWAIT_EXITS = false is D1 (log 3). -/
def Obligations.ResetLeavesEveryElementAtItsValue : Prop :=
  State.reset.cfg.keywaitExits = false ∧
  ∀ (cfg : Config) (t : State), t = State.resetWith cfg → (∀ x, t.getV x = 0) ∧ t.i = 0 ∧ t.pc = 0x200 ∧
    (∀ k : Fin 16, t.stack[k] = 0) ∧ t.sp = 0 ∧ t.dt = 0 ∧ t.st = 0 ∧ (∀ r c, t.display.cell r c = false) ∧
    t.changed = false ∧ (∀ k : Fin 16, t.keys[k] = false) ∧ t.waiting = false ∧ t.waitReg = 0 ∧ t.fault = none ∧
    t.outputs.beep = false ∧ (∀ a (h : a < 80), t.peek a = cfg.font[a]) ∧ (∀ a, 80 ≤ a → t.peek a = 0)

/-- Every tick uses up one scheduled input, is counted, and never changes the parameters or the note of a load (the model's
own fields, log 1 to 3 and 26); a next state never has a fault latched. -/
def Obligations.TickConsumesOneInputAndKeepsParameters : Prop :=
  ∀ s t : State, step s = .next t →
    t.cfg = s.cfg ∧ t.inputs = s.inputs.tail ∧ t.ticks = s.ticks + 1 ∧ t.rnd = s.input.rnd ∧
    t.loaded = s.loaded ∧ t.fault = none

/-! ### Who writes what, R39 -/

/-- MEM is written by Fx33 and Fx55 only, DISPLAY by 00E0 and Dxyn only. -/
def Obligations.MemoryAndDisplayHaveTheirWriters : Prop :=
  ∀ s t : State, step s = .next t →
    (∀ a, t.peek a ≠ s.peek a → (∃ x, s.Executes (.ldB x)) ∨ (∃ x, s.Executes (.stRegs x))) ∧
    (t.display ≠ s.display → s.Executes .cls ∨ ∃ x y n, s.Executes (.drw x y n))

/-- R206: "No instruction that accesses memory changes `I`"; after Fx55 or Fx65 it still holds the base address. And a tick
changes I only by Annn, Fx1E or Fx29 (R23). -/
def Obligations.MemoryInstructionsKeepTheIndex : Prop :=
  (∀ (s t : State) (x y : Reg) (n : Count) (i : Instr),
    i ∈ [Instr.ldB x, .stRegs x, .ldRegs x, .drw x y n] → exec i s = .next t → t.i = s.i) ∧
  (∀ s t : State, step s = .next t → t.i ≠ s.i →
    (∃ nnn, s.Executes (.ldI nnn)) ∨ (∃ x, s.Executes (.addI x)) ∨ (∃ x, s.Executes (.ldF x)))

/-- R25, R26: a tick moves SP by at most 1, up by 2nnn and down by 00EE only; STACK changes only at the slot SP of a call
made with SP below 16, and a return clears nothing. -/
def Obligations.StackMovesOnlyByCallAndReturn : Prop :=
  ∀ s t : State, step s = .next t →
    (t.sp = s.sp ∧ t.stack = s.stack) ∨
    ((∃ nnn, s.Executes (.call nnn)) ∧ t.sp = s.sp + 1 ∧ ∀ k : Fin 16, k.val ≠ s.sp → t.stack[k] = s.stack[k]) ∨
    (s.Executes .ret ∧ t.sp + 1 = s.sp ∧ t.stack = s.stack)

/-- R22, R39: a general register changes only when the executed instruction names it as a destination or defines the flag
register, or when it is V[WAIT_REG] in a waiting tick. -/
def Obligations.RegistersChangeOnlyByTheirWriters : Prop :=
  ∀ (s t : State) (y : Reg), step s = .next t → t.getV y ≠ s.getV y →
    (s.waiting = true ∧ y = s.waitReg) ∨ ∃ i, s.Executes i ∧ y ∈ writesV i

/-- R223: CHANGED after a tick says that the tick executed 00E0 or Dxyn, and nothing else. -/
def Obligations.ChangedFlagMeansADisplayInstructionRan : Prop :=
  ∀ s t : State, step s = .next t →
    (t.outputs.changed = true ↔ s.Executes .cls ∨ ∃ x y n, s.Executes (.drw x y n))

/-- R127: PC is advanced by 2 on every non-waiting tick, unrecognised words included, before the instruction: a call
pushes the advanced PC (R152), a skip leaves it or adds 2 more, only the jumps, the call and the return (R150) overwrite
it. That Bnnn gives the exact, unmasked sum (R157) is decision D11 (log 14). -/
def Obligations.PcAdvancesBeforeTheInstruction : Prop :=
  ∀ s t : State, step s = .next t →
    (s.waiting = false → t.pc = s.pc + 2 ∨
      ∃ i, s.Executes i ∧ (isJump i = true ∨ (isSkip i = true ∧ t.pc = s.pc + 2 + 2))) ∧
    (∀ (nnn : Imm12) (h : s.sp < 16), s.Executes (.call nnn) → t.stack[s.sp] = s.pc + 2) ∧
    (∀ nnn : Imm12, s.Executes (.call nnn) ∨ s.Executes (.jp nnn) → t.pc.toNat = nnn.toNat) ∧
    (∀ nnn : Imm12, s.Executes (.jpV0 nnn) → t.pc.toNat = (s.getV 0).toNat + nnn.toNat) ∧
    (∀ h : 1 ≤ s.sp ∧ s.sp ≤ 16, s.Executes .ret → t.pc = s.stack[s.sp - 1]'(by omega)) ∧
    (s.waiting = true → t.pc = s.pc)

/-! ### Control flow -/

/-- R151. -/
def Obligations.JumpSetsThePc : Prop :=
  ∀ (s : State) (nnn : Imm12), ∃ t, exec (.jp nnn) s = .next t ∧ t.pc.toNat = nnn.toNat ∧ Frame [.pc] [] s t

/-- R152, D2 (log 10): the advanced PC goes to the slot SP if there is one, SP rises in any case, PC is the target. -/
def Obligations.CallPushesIfRoomAndCounts : Prop :=
  ∀ (s : State) (nnn : Imm12), ∃ t, exec (.call nnn) s = .next t ∧
    t.pc.toNat = nnn.toNat ∧ t.sp = s.sp + 1 ∧
    (∀ k : Fin 16, t.stack[k] = if k.val = s.sp then s.pc else s.stack[k]) ∧ Frame [.pc, .stack, .sp] [] s t

/-- R150; the two faults are decision D3 (log 9), their record D6 (log 6, 24). -/
def Obligations.ReturnPopsOrFaults : Prop :=
  (∀ (s : State) (h : 1 ≤ s.sp ∧ s.sp ≤ 16), ∃ t, exec .ret s = .next t ∧
    t.sp = s.sp - 1 ∧ t.pc = s.stack[s.sp - 1]'(by omega) ∧ Frame [.pc, .sp] [] s t) ∧
  (∀ s : State, s.sp = 0 → exec .ret s = .fault (.stackUnderflow (s.pc - 2))) ∧
  (∀ s : State, 16 < s.sp → exec .ret s = .fault (.stackSlotOutOfRange (s.pc - 2) (s.sp - 1)))

/-- R153 to R156: the four register skips. -/
def Obligations.SkipsAddTwoWhenTheirConditionHolds : Prop :=
  ∀ (s : State) (x y : Reg) (kk : Byte),
    (∃ t, exec (.seImm x kk) s = .next t ∧
      t.pc = (if (s.getV x).toNat = kk.toNat then s.pc + 2 else s.pc) ∧ Frame [.pc] [] s t) ∧
    (∃ t, exec (.sneImm x kk) s = .next t ∧
      t.pc = (if (s.getV x).toNat = kk.toNat then s.pc else s.pc + 2) ∧ Frame [.pc] [] s t) ∧
    (∃ t, exec (.seReg x y) s = .next t ∧
      t.pc = (if (s.getV x).toNat = (s.getV y).toNat then s.pc + 2 else s.pc) ∧ Frame [.pc] [] s t) ∧
    (∃ t, exec (.sneReg x y) s = .next t ∧
      t.pc = (if (s.getV x).toNat = (s.getV y).toNat then s.pc else s.pc + 2) ∧ Frame [.pc] [] s t)

/-- R157, D11 (log 14): the sum is exact, up to 0x10FE, and not reduced modulo 4096. -/
def Obligations.JumpPlusV0IsNotMasked : Prop :=
  ∀ (s : State) (nnn : Imm12), ∃ t, exec (.jpV0 nnn) s = .next t ∧
    t.pc.toNat = (s.getV 0).toNat + nnn.toNat ∧ Frame [.pc] [] s t

/-- R158 (derived there, from D2 and D3; log 9, 10): a call at depth d < 16, then any run in which SP stays above d, then a return at
depth d + 1: that return goes to the word after the call, and SP is d again. -/
def Obligations.CallAndReturnPair : Prop :=
  ∀ (s t u : State) (nnn : Imm12) (n : Nat), s.sp < 16 → s.Executes (.call nnn) → step s = .next t →
    (∀ k v, k ≤ n → RunsTo k t v → s.sp + 1 ≤ v.sp) → RunsTo n t u → u.sp = s.sp + 1 → u.Executes .ret →
    ∃ v, step u = .next v ∧ v.pc = s.pc + 2 ∧ v.sp = s.sp

/-! ### Loads and arithmetic -/

/-- R170, R172. -/
def Obligations.LoadsCopyTheirOperand : Prop :=
  ∀ (s : State) (x y : Reg) (kk : Byte),
    (∃ t, exec (.ldImm x kk) s = .next t ∧ t.getV x = kk ∧ Frame [] [x] s t) ∧
    (∃ t, exec (.ldReg x y) s = .next t ∧ t.getV x = s.getV y ∧ Frame [] [x] s t)

/-- R171: modulo 256, and VF untouched unless it is the destination. -/
def Obligations.AddImmediateWrapsWithoutAFlag : Prop :=
  ∀ (s : State) (x : Reg) (kk : Byte), ∃ t, exec (.addImm x kk) s = .next t ∧
    (t.getV x).toNat = ((s.getV x).toNat + kk.toNat) % 256 ∧ (x ≠ 15 → t.getV 15 = s.getV 15) ∧ Frame [] [x] s t

/-- R173 to R175, bit by bit; VF is written only as the destination. -/
def Obligations.LogicIsBitwiseWithoutAFlag : Prop :=
  ∀ (s : State) (x y : Reg),
    (∃ t, exec (.orReg x y) s = .next t ∧
      (∀ b < 8, (t.getV x).getLsbD b = ((s.getV x).getLsbD b || (s.getV y).getLsbD b)) ∧ Frame [] [x] s t) ∧
    (∃ t, exec (.andReg x y) s = .next t ∧
      (∀ b < 8, (t.getV x).getLsbD b = ((s.getV x).getLsbD b && (s.getV y).getLsbD b)) ∧ Frame [] [x] s t) ∧
    (∃ t, exec (.xorReg x y) s = .next t ∧
      (∀ b < 8, (t.getV x).getLsbD b = ((s.getV x).getLsbD b ^^ (s.getV y).getLsbD b)) ∧ Frame [] [x] s t)

/-- R176: the sum of the operands on entry modulo 256, then VF = carry; with x = 15 the carry is what remains. The cases x = 15
and y = 15 are decision D7 (R183, log 11). -/
def Obligations.AddRegisterSetsTheCarryLast : Prop :=
  ∀ (s : State) (x y : Reg), ∃ t, exec (.addReg x y) s = .next t ∧
    (x ≠ 15 → (t.getV x).toNat = ((s.getV x).toNat + (s.getV y).toNat) % 256) ∧
    (t.getV 15).toNat = (if (s.getV x).toNat + (s.getV y).toNat > 255 then 1 else 0) ∧ Frame [] [x, 15] s t

/-- R177, R179 for operands other than register 15 (those are FlagRegisterAsOperandIsSequential's): a strict comparison in VF,
the difference modulo 256 in V[x]. -/
def Obligations.SubtractionsSetAStrictComparison : Prop :=
  ∀ (s : State) (x y : Reg), x ≠ 15 → y ≠ 15 →
    (∃ t, exec (.subReg x y) s = .next t ∧
      (t.getV x).toNat = ((s.getV x).toNat + 256 - (s.getV y).toNat) % 256 ∧
      (t.getV 15).toNat = (if (s.getV x).toNat > (s.getV y).toNat then 1 else 0) ∧ Frame [] [x, 15] s t) ∧
    (∃ t, exec (.subnReg x y) s = .next t ∧
      (t.getV x).toNat = ((s.getV y).toNat + 256 - (s.getV x).toNat) % 256 ∧
      (t.getV 15).toNat = (if (s.getV y).toNat > (s.getV x).toNat then 1 else 0) ∧ Frame [] [x, 15] s t)

/-- R178, R180 for x other than register 15: logical shifts by one, the bit shifted out in VF, y ignored. -/
def Obligations.ShiftsKeepTheBitShiftedOut : Prop :=
  ∀ (s : State) (x y : Reg), x ≠ 15 →
    (∃ t, exec (.shr x y) s = .next t ∧ (t.getV x).toNat = (s.getV x).toNat / 2 ∧
      (t.getV 15).toNat = (s.getV x).toNat % 2 ∧ Frame [] [x, 15] s t) ∧
    (∃ t, exec (.shl x y) s = .next t ∧ (t.getV x).toNat = (s.getV x).toNat * 2 % 256 ∧
      (t.getV 15).toNat = (s.getV x).toNat / 128 ∧ Frame [] [x, 15] s t)

/-- Decision D7 (log 11), the outcome table of R183: register 15 as an operand of 8xy5, 8xy6, 8xy7 and 8xyE. The flag is
written first and the result is computed from the registers as they then are. -/
def Obligations.FlagRegisterAsOperandIsSequential : Prop :=
  ∀ s : State,
    (∀ y, y ≠ 15 → ∃ t, exec (.subReg 15 y) s = .next t ∧ (t.getV 15).toNat =
        ((if (s.getV 15).toNat > (s.getV y).toNat then 1 else 0) + 256 - (s.getV y).toNat) % 256 ∧ Frame [] [15] s t) ∧
    (∀ x, x ≠ 15 → ∃ t f, exec (.subReg x 15) s = .next t ∧
        f = (if (s.getV x).toNat > (s.getV 15).toNat then 1 else 0) ∧ (t.getV 15).toNat = f ∧
        (t.getV x).toNat = ((s.getV x).toNat + 256 - f) % 256 ∧ Frame [] [x, 15] s t) ∧
    (∃ t, exec (.subReg 15 15) s = .next t ∧ t.getV 15 = 0 ∧ Frame [] [15] s t) ∧
    (∀ y, y ≠ 15 → ∃ t, exec (.subnReg 15 y) s = .next t ∧ (t.getV 15).toNat =
        ((s.getV y).toNat + 256 - (if (s.getV y).toNat > (s.getV 15).toNat then 1 else 0)) % 256 ∧ Frame [] [15] s t) ∧
    (∀ x, x ≠ 15 → ∃ t f, exec (.subnReg x 15) s = .next t ∧
        f = (if (s.getV 15).toNat > (s.getV x).toNat then 1 else 0) ∧ (t.getV 15).toNat = f ∧
        (t.getV x).toNat = (f + 256 - (s.getV x).toNat) % 256 ∧ Frame [] [x, 15] s t) ∧
    (∃ t, exec (.subnReg 15 15) s = .next t ∧ t.getV 15 = 0 ∧ Frame [] [15] s t) ∧
    (∀ y, ∃ t, exec (.shr 15 y) s = .next t ∧ t.getV 15 = 0 ∧ Frame [] [15] s t) ∧
    (∀ y, ∃ t, exec (.shl 15 y) s = .next t ∧ (t.getV 15).toNat = 2 * ((s.getV 15).toNat / 128) ∧ Frame [] [15] s t)

/-- R181, D13 (log 16): the tick's random byte AND kk, for every value of that byte; no bit outside kk is ever set. In a
tick the byte is that tick's input. -/
def Obligations.RandomByteIsMaskedByKk : Prop :=
  (∀ (s : State) (x : Reg) (kk : Byte), ∃ t, exec (.rnd x kk) s = .next t ∧ t.getV x = s.rnd &&& kk ∧
    t.getV x &&& ~~~kk = 0 ∧ Frame [] [x] s t) ∧
  (∀ (s t : State) (x : Reg) (kk : Byte), s.Executes (.rnd x kk) → step s = .next t →
    t.getV x = s.input.rnd &&& kk)

/-! ### Index register and memory -/

/-- R200, R202. -/
def Obligations.IndexLoadsAreExact : Prop :=
  (∀ (s : State) (nnn : Imm12), ∃ t, exec (.ldI nnn) s = .next t ∧ t.i.toNat = nnn.toNat ∧ Frame [.i] [] s t) ∧
  (∀ (s : State) (x : Reg), ∃ t, exec (.ldF x) s = .next t ∧ t.i.toNat = (s.getV x).toNat * 5 ∧ Frame [.i] [] s t)

/-- R201, D12 (log 15, 25): modulo 2^16, then VF from the wrapped I against 0x0F00; with x = 15 the old VF is the addend. -/
def Obligations.AddToIndexWrapsAndFlagsAbove0F00 : Prop :=
  ∀ (s : State) (x : Reg), ∃ t, exec (.addI x) s = .next t ∧
    t.i.toNat = (s.i.toNat + (s.getV x).toNat) % 65536 ∧
    (t.getV 15).toNat = (if t.i.toNat > 0x0F00 then 1 else 0) ∧ Frame [.i] [15] s t

/-- R203; the fault is decision D4 (log 7, 24). The digits read back where memory is in canonical form, an invariant. -/
def Obligations.BcdStoresThreeDigitsOrFaults : Prop :=
  ∀ (s : State) (x : Reg),
    (s.i.toNat ≤ 4093 → ∃ t, exec (.ldB x) s = .next t ∧
      (∀ a, a < s.i.toNat ∨ s.i.toNat + 3 ≤ a → t.peek a = s.peek a) ∧
      (s.MemCanonical → (t.peek s.i.toNat).toNat = (s.getV x).toNat / 100 ∧
        (t.peek (s.i.toNat + 1)).toNat = (s.getV x).toNat / 10 % 10 ∧
        (t.peek (s.i.toNat + 2)).toNat = (s.getV x).toNat % 10) ∧ Frame [.mem] [] s t) ∧
    (4093 < s.i.toNat → exec (.ldB x) s = .fault (.memWriteOutOfRange (s.pc - 2) (max s.i.toNat 4096)))

/-- R204; the fault is decision D4 (log 7, 24). -/
def Obligations.StoreBlockWritesRegistersOrFaults : Prop :=
  ∀ (s : State) (x : Reg),
    (s.i.toNat + x.val ≤ 4095 → ∃ t, exec (.stRegs x) s = .next t ∧
      (∀ a, a < s.i.toNat ∨ s.i.toNat + x.val < a → t.peek a = s.peek a) ∧
      (s.MemCanonical → ∀ k : Reg, k ≤ x → t.peek (s.i.toNat + k.val) = s.getV k) ∧ Frame [.mem] [] s t) ∧
    (4095 < s.i.toNat + x.val → exec (.stRegs x) s = .fault (.memWriteOutOfRange (s.pc - 2) (max s.i.toNat 4096)))

/-- R205; the fault is decision D4 (log 7, 24). -/
def Obligations.LoadBlockReadsRegistersOrFaults : Prop :=
  ∀ (s : State) (x : Reg),
    (s.i.toNat + x.val ≤ 4095 → ∃ t, exec (.ldRegs x) s = .next t ∧
      (∀ k : Reg, k ≤ x → t.getV k = s.peek (s.i.toNat + k.val)) ∧ Frame [] (regsUpTo x) s t ∧
      (∀ k : Reg, x < k → t.getV k = s.getV k)) ∧
    (4095 < s.i.toNat + x.val → exec (.ldRegs x) s = .fault (.memReadOutOfRange (s.pc - 2) (max s.i.toNat 4096)))

/-- R205: "Fx55 followed by Fx65 with the same `x` and the same `I` restores the registers", whatever the registers hold
in between. -/
def Obligations.StoreThenLoadRestoresTheRegisters : Prop :=
  ∀ (s t u : State) (x : Reg), s.MemCanonical → exec (.stRegs x) s = .next t →
    u.i = s.i → u.mem = t.mem → u.cfg = t.cfg →
    ∃ v, exec (.ldRegs x) u = .next v ∧ (∀ k : Reg, k ≤ x → v.getV k = s.getV k) ∧ v.mem = t.mem ∧ v.i = s.i

/-- R71, with R62 and R64 for the byte order (R71 is derived there from R62, R66 and R68): after a tick that executes Fx33
or Fx55, let `b` be memory as that store leaves it, the digits or the registers from I upward and the old bytes elsewhere.
The next tick's fetch, at PC plus 2, and every later fetch from that memory, wherever PC is, reads `b`, high byte at the
lower address, and executes what it says. -/
def Obligations.StoreIsSeenByTheNextFetch : Prop :=
  ∀ (s t : State) (b : Nat → Byte), s.MemCanonical → step s = .next t →
    (∃ x : Reg, s.Executes (.stRegs x) ∧ (∀ k : Reg, k ≤ x → b (s.i.toNat + k.val) = s.getV k) ∧
        ∀ a, a < s.i.toNat ∨ s.i.toNat + x.val < a → b a = s.peek a) ∨
      (∃ x : Reg, s.Executes (.ldB x) ∧ (b s.i.toNat).toNat = (s.getV x).toNat / 100 ∧
        (b (s.i.toNat + 1)).toNat = (s.getV x).toNat / 10 % 10 ∧ (b (s.i.toNat + 2)).toNat = (s.getV x).toNat % 10 ∧
        ∀ a, a < s.i.toNat ∨ s.i.toNat + 3 ≤ a → b a = s.peek a) →
    t.pc = s.pc + 2 ∧ t.fault = none ∧ t.waiting = false ∧
    ∀ u : State, u.mem = t.mem → u.cfg = t.cfg → u.pc.toNat ≤ 0xFFE →
      u.fetch = .ok (b u.pc.toNat ++ b (u.pc.toNat + 1)) ∧
      (u.fault = none → u.waiting = false →
        ∀ i, decodeWord (b u.pc.toNat ++ b (u.pc.toNat + 1)) = .ok i → u.Executes i)

/-! ### Display -/

/-- R220. -/
def Obligations.ClearBlanksEveryCell : Prop :=
  ∀ s : State, ∃ t, exec .cls s = .next t ∧ (∀ r c, t.display.cell r c = false) ∧ t.changed = true ∧
    Frame [.display, .changed] [] s t

/-- R221, R222, with decisions D8 (VF starts at 0, coordinates read on entry; log 12), D9 (bit and row order; log 13) and
D4 (the fault; log 7, 24): row r and bit j of the sprite go to the cell ((V[y] + r) mod 32, (V[x] + j) mod 64), XORed; every other cell
stays; VF says whether a set cell met a set bit. -/
def Obligations.DrawXorsEachSpriteBitOnce : Prop :=
  ∀ (s : State) (x y : Reg) (n : Count),
    (n.val = 0 ∨ s.i.toNat + n.val ≤ 4096 → ∃ t, exec (.drw x y n) s = .next t ∧
      (∀ r j (_ : r < n.val) (_ : j < 8),
        t.display.cell (Fin.ofNat 32 ((s.getV y).toNat + r)) (Fin.ofNat 64 ((s.getV x).toNat + j)) =
          (s.display.cell (Fin.ofNat 32 ((s.getV y).toNat + r)) (Fin.ofNat 64 ((s.getV x).toNat + j)) ^^
            (s.peek (s.i.toNat + r)).getLsbD (7 - j))) ∧
      (∀ row col, (∀ r j, r < n.val → j < 8 → ¬ (row.val = ((s.getV y).toNat + r) % 32 ∧
          col.val = ((s.getV x).toNat + j) % 64)) → t.display.cell row col = s.display.cell row col) ∧
      (t.getV 15).toNat ≤ 1 ∧
      (t.getV 15 = 1 ↔ ∃ r j, r < n.val ∧ j < 8 ∧ (s.peek (s.i.toNat + r)).getLsbD (7 - j) = true ∧
        s.display.cell (Fin.ofNat 32 ((s.getV y).toNat + r)) (Fin.ofNat 64 ((s.getV x).toNat + j)) = true) ∧
      t.changed = true ∧ Frame [.display, .changed] [15] s t) ∧
    (n.val ≠ 0 → 4096 < s.i.toNat + n.val →
      exec (.drw x y n) s = .fault (.memReadOutOfRange (s.pc - 2) (max s.i.toNat 4096)))

/-- The document's collision property (95_test_vectors.md S6; D8, log 12; the bit order 7 - j is D9, log 13): the same sprite drawn twice at the same place restores
the display, and the second VF says whether any sprite bit fell on a cell that was 0 before the first draw. -/
def Obligations.DrawingTwiceRestoresTheDisplay : Prop :=
  ∀ (s t u : State) (x y : Reg) (n : Count), x ≠ 15 → y ≠ 15 →
    exec (.drw x y n) s = .next t → exec (.drw x y n) t = .next u →
    u.display = s.display ∧
    (u.getV 15 = 1 ↔ ∃ r j, r < n.val ∧ j < 8 ∧ (s.peek (s.i.toNat + r)).getLsbD (7 - j) = true ∧
      s.display.cell (Fin.ofNat 32 ((s.getV y).toNat + r)) (Fin.ofNat 64 ((s.getV x).toNat + j)) = false)

/-! ### Keypad and timers -/

/-- R240, R241; the fault is decision D5 (log 8, 24). -/
def Obligations.KeySkipsTestTheNumberedKeyOrFault : Prop :=
  ∀ (s : State) (x : Reg),
    (∀ h : (s.getV x).toNat < 16,
      (∃ t, exec (.skp x) s = .next t ∧ t.pc = (if s.keys[(s.getV x).toNat] then s.pc + 2 else s.pc) ∧
        Frame [.pc] [] s t) ∧
      (∃ t, exec (.sknp x) s = .next t ∧ t.pc = (if s.keys[(s.getV x).toNat] then s.pc else s.pc + 2) ∧
        Frame [.pc] [] s t)) ∧
    (16 ≤ (s.getV x).toNat →
      exec (.skp x) s = .fault (.keyIndexOutOfRange (s.pc - 2) (s.getV x)) ∧
      exec (.sknp x) s = .fault (.keyIndexOutOfRange (s.pc - 2) (s.getV x)))

/-- R242, R244, R245: the timer moves. -/
def Obligations.TimerMovesCopyTheByte : Prop :=
  ∀ (s : State) (x : Reg),
    (∃ t, exec (.ldVxDt x) s = .next t ∧ t.getV x = s.dt ∧ Frame [] [x] s t) ∧
    (∃ t, exec (.ldDtVx x) s = .next t ∧ t.dt = s.getV x ∧ Frame [.dt] [] s t) ∧
    (∃ t, exec (.ldStVx x) s = .next t ∧ t.st = s.getV x ∧
      (t.outputs.beep = true ↔ 0 < (s.getV x).toNat) ∧ Frame [.st] [] s t)

/-- R243: the wait begins; no general register is written and the keys are not looked at, even a key that is down. -/
def Obligations.KeyWaitOnlyRecordsItsRegister : Prop :=
  ∀ (s : State) (x : Reg), ∃ t, exec (.ldVxK x) s = .next t ∧ t.waiting = true ∧ t.waitReg = x ∧
    Frame [.waiting, .waitReg] [] s t

/-! ### Load and end of run -/

/-- R304, R28, with the refusals of D18 and U17 (log 18): an image of 1 to 3584 bytes goes to 0x200 upward in a machine in
its reset state, and nothing else changes but the model's own note of the load (log 26); the reset states are the reset
state for some parameters, whatever inputs are scheduled; every other load is refused by name, and so is every load of
the machine a first load leaves, whatever the first image was. -/
def Obligations.LoadPlacesTheImageAt0x200OrRefuses : Prop :=
  (∀ (cfg : Config) (ins : List TickInput) (image : List Byte), 1 ≤ image.length → image.length ≤ 3584 →
    ∃ t, State.load image { State.resetWith cfg with inputs := ins } = .next t ∧
      (∀ k (h : k < image.length), t.peek (0x200 + k) = image[k]) ∧
      (∀ a, a < 0x200 ∨ 0x200 + image.length ≤ a → t.peek a = (State.resetWith cfg).peek a) ∧
      t = { State.resetWith cfg with inputs := ins, mem := t.mem, loaded := true } ∧ t.MemCanonical) ∧
  (∀ s : State, State.load [] s = .refused .imageEmpty) ∧
  (∀ (s : State) (image : List Byte), 3584 < image.length → State.load image s = .refused (.imageTooLong image.length)) ∧
  (∀ (s : State) (image : List Byte), 1 ≤ image.length → image.length ≤ 3584 → s.isFresh = false →
    State.load image s = .refused .loadAfterReset) ∧
  (∀ s : State, s.isFresh = true ↔ ∃ cfg ins, s = { State.resetWith cfg with inputs := ins }) ∧
  (∀ (s t : State) (first second : List Byte), State.load first s = .next t →
    1 ≤ second.length → second.length ≤ 3584 → State.load second t = .refused .loadAfterReset)

/-- A word placed where the next step fetches is what the next tick executes (log 18). -/
def Obligations.PlacedWordIsTheNextInstruction : Prop :=
  ∀ (s : State) (w : Word) (i : Instr), s.MemCanonical → decodeWord w = .ok i →
    (s.withFetchWord 16 w.toNat).Executes i

/-- R308 (decision D20, log 21): a program stopped at a jump to itself stays there for ever; nothing moves but the timers, KEYS and
CHANGED. -/
def Obligations.StoppedProgramStaysStopped : Prop :=
  ∀ (n : Nat) (s : State) (a : Imm12), s.StoppedAt a →
    ∃ t, RunsTo n s t ∧ t.StoppedAt a ∧ (∀ x, t.getV x = s.getV x) ∧ t.i = s.i ∧ t.sp = s.sp ∧ t.stack = s.stack ∧
      (∀ b, t.peek b = s.peek b) ∧ t.display = s.display ∧ t.waitReg = s.waitReg ∧
      t.dt.toNat = s.dt.toNat - n ∧ t.st.toNat = s.st.toNat - n ∧ (0 < n → t.changed = false)
end

