-- ==== Sys2Proof/Laws/State.lean ====
section
/-! SUPPORT. One lemma per field per update of the state: what a named update leaves in each field. A later proof cites
these (they are in the simp set) and unfolds no record update. -/

namespace Sys2Proof.Machine

/-! ### State.setV -/

@[simp] theorem setV_v (s : State) (x : Reg) (w : Byte) : (s.setV x w).v = s.v.set x w := rfl
@[simp] theorem setV_i (s : State) (x : Reg) (w : Byte) : (s.setV x w).i = s.i := rfl
@[simp] theorem setV_pc (s : State) (x : Reg) (w : Byte) : (s.setV x w).pc = s.pc := rfl
@[simp] theorem setV_stack (s : State) (x : Reg) (w : Byte) : (s.setV x w).stack = s.stack := rfl
@[simp] theorem setV_sp (s : State) (x : Reg) (w : Byte) : (s.setV x w).sp = s.sp := rfl
@[simp] theorem setV_dt (s : State) (x : Reg) (w : Byte) : (s.setV x w).dt = s.dt := rfl
@[simp] theorem setV_st (s : State) (x : Reg) (w : Byte) : (s.setV x w).st = s.st := rfl
@[simp] theorem setV_mem (s : State) (x : Reg) (w : Byte) : (s.setV x w).mem = s.mem := rfl
@[simp] theorem setV_display (s : State) (x : Reg) (w : Byte) : (s.setV x w).display = s.display := rfl
@[simp] theorem setV_changed (s : State) (x : Reg) (w : Byte) : (s.setV x w).changed = s.changed := rfl
@[simp] theorem setV_keys (s : State) (x : Reg) (w : Byte) : (s.setV x w).keys = s.keys := rfl
@[simp] theorem setV_waiting (s : State) (x : Reg) (w : Byte) : (s.setV x w).waiting = s.waiting := rfl
@[simp] theorem setV_waitReg (s : State) (x : Reg) (w : Byte) : (s.setV x w).waitReg = s.waitReg := rfl
@[simp] theorem setV_fault (s : State) (x : Reg) (w : Byte) : (s.setV x w).fault = s.fault := rfl
@[simp] theorem setV_cfg (s : State) (x : Reg) (w : Byte) : (s.setV x w).cfg = s.cfg := rfl
@[simp] theorem setV_inputs (s : State) (x : Reg) (w : Byte) : (s.setV x w).inputs = s.inputs := rfl
@[simp] theorem setV_ticks (s : State) (x : Reg) (w : Byte) : (s.setV x w).ticks = s.ticks := rfl
@[simp] theorem setV_loaded (s : State) (x : Reg) (w : Byte) : (s.setV x w).loaded = s.loaded := rfl
@[simp] theorem setV_rnd (s : State) (x : Reg) (w : Byte) : (s.setV x w).rnd = s.rnd := rfl

/-! ### State.setVF -/

@[simp] theorem setVF_v (s : State) (w : Byte) : (s.setVF w).v = s.v.set 15 w := rfl
@[simp] theorem setVF_i (s : State) (w : Byte) : (s.setVF w).i = s.i := rfl
@[simp] theorem setVF_pc (s : State) (w : Byte) : (s.setVF w).pc = s.pc := rfl
@[simp] theorem setVF_stack (s : State) (w : Byte) : (s.setVF w).stack = s.stack := rfl
@[simp] theorem setVF_sp (s : State) (w : Byte) : (s.setVF w).sp = s.sp := rfl
@[simp] theorem setVF_dt (s : State) (w : Byte) : (s.setVF w).dt = s.dt := rfl
@[simp] theorem setVF_st (s : State) (w : Byte) : (s.setVF w).st = s.st := rfl
@[simp] theorem setVF_mem (s : State) (w : Byte) : (s.setVF w).mem = s.mem := rfl
@[simp] theorem setVF_display (s : State) (w : Byte) : (s.setVF w).display = s.display := rfl
@[simp] theorem setVF_changed (s : State) (w : Byte) : (s.setVF w).changed = s.changed := rfl
@[simp] theorem setVF_keys (s : State) (w : Byte) : (s.setVF w).keys = s.keys := rfl
@[simp] theorem setVF_waiting (s : State) (w : Byte) : (s.setVF w).waiting = s.waiting := rfl
@[simp] theorem setVF_waitReg (s : State) (w : Byte) : (s.setVF w).waitReg = s.waitReg := rfl
@[simp] theorem setVF_fault (s : State) (w : Byte) : (s.setVF w).fault = s.fault := rfl
@[simp] theorem setVF_cfg (s : State) (w : Byte) : (s.setVF w).cfg = s.cfg := rfl
@[simp] theorem setVF_inputs (s : State) (w : Byte) : (s.setVF w).inputs = s.inputs := rfl
@[simp] theorem setVF_ticks (s : State) (w : Byte) : (s.setVF w).ticks = s.ticks := rfl
@[simp] theorem setVF_loaded (s : State) (w : Byte) : (s.setVF w).loaded = s.loaded := rfl
@[simp] theorem setVF_rnd (s : State) (w : Byte) : (s.setVF w).rnd = s.rnd := rfl

/-! ### State.setI -/

@[simp] theorem setI_v (s : State) (w : Word) : (s.setI w).v = s.v := rfl
@[simp] theorem setI_i (s : State) (w : Word) : (s.setI w).i = w := rfl
@[simp] theorem setI_pc (s : State) (w : Word) : (s.setI w).pc = s.pc := rfl
@[simp] theorem setI_stack (s : State) (w : Word) : (s.setI w).stack = s.stack := rfl
@[simp] theorem setI_sp (s : State) (w : Word) : (s.setI w).sp = s.sp := rfl
@[simp] theorem setI_dt (s : State) (w : Word) : (s.setI w).dt = s.dt := rfl
@[simp] theorem setI_st (s : State) (w : Word) : (s.setI w).st = s.st := rfl
@[simp] theorem setI_mem (s : State) (w : Word) : (s.setI w).mem = s.mem := rfl
@[simp] theorem setI_display (s : State) (w : Word) : (s.setI w).display = s.display := rfl
@[simp] theorem setI_changed (s : State) (w : Word) : (s.setI w).changed = s.changed := rfl
@[simp] theorem setI_keys (s : State) (w : Word) : (s.setI w).keys = s.keys := rfl
@[simp] theorem setI_waiting (s : State) (w : Word) : (s.setI w).waiting = s.waiting := rfl
@[simp] theorem setI_waitReg (s : State) (w : Word) : (s.setI w).waitReg = s.waitReg := rfl
@[simp] theorem setI_fault (s : State) (w : Word) : (s.setI w).fault = s.fault := rfl
@[simp] theorem setI_cfg (s : State) (w : Word) : (s.setI w).cfg = s.cfg := rfl
@[simp] theorem setI_inputs (s : State) (w : Word) : (s.setI w).inputs = s.inputs := rfl
@[simp] theorem setI_ticks (s : State) (w : Word) : (s.setI w).ticks = s.ticks := rfl
@[simp] theorem setI_loaded (s : State) (w : Word) : (s.setI w).loaded = s.loaded := rfl
@[simp] theorem setI_rnd (s : State) (w : Word) : (s.setI w).rnd = s.rnd := rfl

/-! ### State.poke -/

@[simp] theorem poke_v (s : State) (a : Nat) (w : Byte) : (s.poke a w).v = s.v := rfl
@[simp] theorem poke_i (s : State) (a : Nat) (w : Byte) : (s.poke a w).i = s.i := rfl
@[simp] theorem poke_pc (s : State) (a : Nat) (w : Byte) : (s.poke a w).pc = s.pc := rfl
@[simp] theorem poke_stack (s : State) (a : Nat) (w : Byte) : (s.poke a w).stack = s.stack := rfl
@[simp] theorem poke_sp (s : State) (a : Nat) (w : Byte) : (s.poke a w).sp = s.sp := rfl
@[simp] theorem poke_dt (s : State) (a : Nat) (w : Byte) : (s.poke a w).dt = s.dt := rfl
@[simp] theorem poke_st (s : State) (a : Nat) (w : Byte) : (s.poke a w).st = s.st := rfl
@[simp] theorem poke_mem (s : State) (a : Nat) (w : Byte) : (s.poke a w).mem = Memory.write s.cfg a w s.mem := rfl
@[simp] theorem poke_display (s : State) (a : Nat) (w : Byte) : (s.poke a w).display = s.display := rfl
@[simp] theorem poke_changed (s : State) (a : Nat) (w : Byte) : (s.poke a w).changed = s.changed := rfl
@[simp] theorem poke_keys (s : State) (a : Nat) (w : Byte) : (s.poke a w).keys = s.keys := rfl
@[simp] theorem poke_waiting (s : State) (a : Nat) (w : Byte) : (s.poke a w).waiting = s.waiting := rfl
@[simp] theorem poke_waitReg (s : State) (a : Nat) (w : Byte) : (s.poke a w).waitReg = s.waitReg := rfl
@[simp] theorem poke_fault (s : State) (a : Nat) (w : Byte) : (s.poke a w).fault = s.fault := rfl
@[simp] theorem poke_cfg (s : State) (a : Nat) (w : Byte) : (s.poke a w).cfg = s.cfg := rfl
@[simp] theorem poke_inputs (s : State) (a : Nat) (w : Byte) : (s.poke a w).inputs = s.inputs := rfl
@[simp] theorem poke_ticks (s : State) (a : Nat) (w : Byte) : (s.poke a w).ticks = s.ticks := rfl
@[simp] theorem poke_loaded (s : State) (a : Nat) (w : Byte) : (s.poke a w).loaded = s.loaded := rfl
@[simp] theorem poke_rnd (s : State) (a : Nat) (w : Byte) : (s.poke a w).rnd = s.rnd := rfl

/-! ### State.jump -/

@[simp] theorem jump_v (s : State) (w : Word) : (s.jump w).v = s.v := rfl
@[simp] theorem jump_i (s : State) (w : Word) : (s.jump w).i = s.i := rfl
@[simp] theorem jump_pc (s : State) (w : Word) : (s.jump w).pc = w := rfl
@[simp] theorem jump_stack (s : State) (w : Word) : (s.jump w).stack = s.stack := rfl
@[simp] theorem jump_sp (s : State) (w : Word) : (s.jump w).sp = s.sp := rfl
@[simp] theorem jump_dt (s : State) (w : Word) : (s.jump w).dt = s.dt := rfl
@[simp] theorem jump_st (s : State) (w : Word) : (s.jump w).st = s.st := rfl
@[simp] theorem jump_mem (s : State) (w : Word) : (s.jump w).mem = s.mem := rfl
@[simp] theorem jump_display (s : State) (w : Word) : (s.jump w).display = s.display := rfl
@[simp] theorem jump_changed (s : State) (w : Word) : (s.jump w).changed = s.changed := rfl
@[simp] theorem jump_keys (s : State) (w : Word) : (s.jump w).keys = s.keys := rfl
@[simp] theorem jump_waiting (s : State) (w : Word) : (s.jump w).waiting = s.waiting := rfl
@[simp] theorem jump_waitReg (s : State) (w : Word) : (s.jump w).waitReg = s.waitReg := rfl
@[simp] theorem jump_fault (s : State) (w : Word) : (s.jump w).fault = s.fault := rfl
@[simp] theorem jump_cfg (s : State) (w : Word) : (s.jump w).cfg = s.cfg := rfl
@[simp] theorem jump_inputs (s : State) (w : Word) : (s.jump w).inputs = s.inputs := rfl
@[simp] theorem jump_ticks (s : State) (w : Word) : (s.jump w).ticks = s.ticks := rfl
@[simp] theorem jump_loaded (s : State) (w : Word) : (s.jump w).loaded = s.loaded := rfl
@[simp] theorem jump_rnd (s : State) (w : Word) : (s.jump w).rnd = s.rnd := rfl

/-! ### State.advance -/

@[simp] theorem advance_v (s : State) : (s.advance).v = s.v := rfl
@[simp] theorem advance_i (s : State) : (s.advance).i = s.i := rfl
@[simp] theorem advance_pc (s : State) : (s.advance).pc = s.pc + 2 := rfl
@[simp] theorem advance_stack (s : State) : (s.advance).stack = s.stack := rfl
@[simp] theorem advance_sp (s : State) : (s.advance).sp = s.sp := rfl
@[simp] theorem advance_dt (s : State) : (s.advance).dt = s.dt := rfl
@[simp] theorem advance_st (s : State) : (s.advance).st = s.st := rfl
@[simp] theorem advance_mem (s : State) : (s.advance).mem = s.mem := rfl
@[simp] theorem advance_display (s : State) : (s.advance).display = s.display := rfl
@[simp] theorem advance_changed (s : State) : (s.advance).changed = s.changed := rfl
@[simp] theorem advance_keys (s : State) : (s.advance).keys = s.keys := rfl
@[simp] theorem advance_waiting (s : State) : (s.advance).waiting = s.waiting := rfl
@[simp] theorem advance_waitReg (s : State) : (s.advance).waitReg = s.waitReg := rfl
@[simp] theorem advance_fault (s : State) : (s.advance).fault = s.fault := rfl
@[simp] theorem advance_cfg (s : State) : (s.advance).cfg = s.cfg := rfl
@[simp] theorem advance_inputs (s : State) : (s.advance).inputs = s.inputs := rfl
@[simp] theorem advance_ticks (s : State) : (s.advance).ticks = s.ticks := rfl
@[simp] theorem advance_loaded (s : State) : (s.advance).loaded = s.loaded := rfl
@[simp] theorem advance_rnd (s : State) : (s.advance).rnd = s.rnd := rfl

/-! ### State.skipIf -/

@[simp] theorem skipIf_v (s : State) (c : Bool) : (s.skipIf c).v = s.v := by cases c <;> rfl
@[simp] theorem skipIf_i (s : State) (c : Bool) : (s.skipIf c).i = s.i := by cases c <;> rfl
@[simp] theorem skipIf_pc (s : State) (c : Bool) : (s.skipIf c).pc = if c then s.pc + 2 else s.pc := by cases c <;> rfl
@[simp] theorem skipIf_stack (s : State) (c : Bool) : (s.skipIf c).stack = s.stack := by cases c <;> rfl
@[simp] theorem skipIf_sp (s : State) (c : Bool) : (s.skipIf c).sp = s.sp := by cases c <;> rfl
@[simp] theorem skipIf_dt (s : State) (c : Bool) : (s.skipIf c).dt = s.dt := by cases c <;> rfl
@[simp] theorem skipIf_st (s : State) (c : Bool) : (s.skipIf c).st = s.st := by cases c <;> rfl
@[simp] theorem skipIf_mem (s : State) (c : Bool) : (s.skipIf c).mem = s.mem := by cases c <;> rfl
@[simp] theorem skipIf_display (s : State) (c : Bool) : (s.skipIf c).display = s.display := by cases c <;> rfl
@[simp] theorem skipIf_changed (s : State) (c : Bool) : (s.skipIf c).changed = s.changed := by cases c <;> rfl
@[simp] theorem skipIf_keys (s : State) (c : Bool) : (s.skipIf c).keys = s.keys := by cases c <;> rfl
@[simp] theorem skipIf_waiting (s : State) (c : Bool) : (s.skipIf c).waiting = s.waiting := by cases c <;> rfl
@[simp] theorem skipIf_waitReg (s : State) (c : Bool) : (s.skipIf c).waitReg = s.waitReg := by cases c <;> rfl
@[simp] theorem skipIf_fault (s : State) (c : Bool) : (s.skipIf c).fault = s.fault := by cases c <;> rfl
@[simp] theorem skipIf_cfg (s : State) (c : Bool) : (s.skipIf c).cfg = s.cfg := by cases c <;> rfl
@[simp] theorem skipIf_inputs (s : State) (c : Bool) : (s.skipIf c).inputs = s.inputs := by cases c <;> rfl
@[simp] theorem skipIf_ticks (s : State) (c : Bool) : (s.skipIf c).ticks = s.ticks := by cases c <;> rfl
@[simp] theorem skipIf_loaded (s : State) (c : Bool) : (s.skipIf c).loaded = s.loaded := by cases c <;> rfl
@[simp] theorem skipIf_rnd (s : State) (c : Bool) : (s.skipIf c).rnd = s.rnd := by cases c <;> rfl

/-! ### State.shown -/

@[simp] theorem shown_v (s : State) (d : Display) : (s.shown d).v = s.v := rfl
@[simp] theorem shown_i (s : State) (d : Display) : (s.shown d).i = s.i := rfl
@[simp] theorem shown_pc (s : State) (d : Display) : (s.shown d).pc = s.pc := rfl
@[simp] theorem shown_stack (s : State) (d : Display) : (s.shown d).stack = s.stack := rfl
@[simp] theorem shown_sp (s : State) (d : Display) : (s.shown d).sp = s.sp := rfl
@[simp] theorem shown_dt (s : State) (d : Display) : (s.shown d).dt = s.dt := rfl
@[simp] theorem shown_st (s : State) (d : Display) : (s.shown d).st = s.st := rfl
@[simp] theorem shown_mem (s : State) (d : Display) : (s.shown d).mem = s.mem := rfl
@[simp] theorem shown_display (s : State) (d : Display) : (s.shown d).display = d := rfl
@[simp] theorem shown_changed (s : State) (d : Display) : (s.shown d).changed = true := rfl
@[simp] theorem shown_keys (s : State) (d : Display) : (s.shown d).keys = s.keys := rfl
@[simp] theorem shown_waiting (s : State) (d : Display) : (s.shown d).waiting = s.waiting := rfl
@[simp] theorem shown_waitReg (s : State) (d : Display) : (s.shown d).waitReg = s.waitReg := rfl
@[simp] theorem shown_fault (s : State) (d : Display) : (s.shown d).fault = s.fault := rfl
@[simp] theorem shown_cfg (s : State) (d : Display) : (s.shown d).cfg = s.cfg := rfl
@[simp] theorem shown_inputs (s : State) (d : Display) : (s.shown d).inputs = s.inputs := rfl
@[simp] theorem shown_ticks (s : State) (d : Display) : (s.shown d).ticks = s.ticks := rfl
@[simp] theorem shown_loaded (s : State) (d : Display) : (s.shown d).loaded = s.loaded := rfl
@[simp] theorem shown_rnd (s : State) (d : Display) : (s.shown d).rnd = s.rnd := rfl

/-! ### State.latchFault -/

@[simp] theorem latchFault_v (s : State) (f : Fault) : (s.latchFault f).v = s.v := rfl
@[simp] theorem latchFault_i (s : State) (f : Fault) : (s.latchFault f).i = s.i := rfl
@[simp] theorem latchFault_pc (s : State) (f : Fault) : (s.latchFault f).pc = s.pc := rfl
@[simp] theorem latchFault_stack (s : State) (f : Fault) : (s.latchFault f).stack = s.stack := rfl
@[simp] theorem latchFault_sp (s : State) (f : Fault) : (s.latchFault f).sp = s.sp := rfl
@[simp] theorem latchFault_dt (s : State) (f : Fault) : (s.latchFault f).dt = s.dt := rfl
@[simp] theorem latchFault_st (s : State) (f : Fault) : (s.latchFault f).st = s.st := rfl
@[simp] theorem latchFault_mem (s : State) (f : Fault) : (s.latchFault f).mem = s.mem := rfl
@[simp] theorem latchFault_display (s : State) (f : Fault) : (s.latchFault f).display = s.display := rfl
@[simp] theorem latchFault_changed (s : State) (f : Fault) : (s.latchFault f).changed = s.changed := rfl
@[simp] theorem latchFault_keys (s : State) (f : Fault) : (s.latchFault f).keys = s.keys := rfl
@[simp] theorem latchFault_waiting (s : State) (f : Fault) : (s.latchFault f).waiting = s.waiting := rfl
@[simp] theorem latchFault_waitReg (s : State) (f : Fault) : (s.latchFault f).waitReg = s.waitReg := rfl
@[simp] theorem latchFault_fault (s : State) (f : Fault) : (s.latchFault f).fault = some f := rfl
@[simp] theorem latchFault_cfg (s : State) (f : Fault) : (s.latchFault f).cfg = s.cfg := rfl
@[simp] theorem latchFault_inputs (s : State) (f : Fault) : (s.latchFault f).inputs = s.inputs := rfl
@[simp] theorem latchFault_ticks (s : State) (f : Fault) : (s.latchFault f).ticks = s.ticks := rfl
@[simp] theorem latchFault_loaded (s : State) (f : Fault) : (s.latchFault f).loaded = s.loaded := rfl
@[simp] theorem latchFault_rnd (s : State) (f : Fault) : (s.latchFault f).rnd = s.rnd := rfl

/-! ### State.countTimers -/

@[simp] theorem countTimers_v (s : State) : (s.countTimers).v = s.v := rfl
@[simp] theorem countTimers_i (s : State) : (s.countTimers).i = s.i := rfl
@[simp] theorem countTimers_pc (s : State) : (s.countTimers).pc = s.pc := rfl
@[simp] theorem countTimers_stack (s : State) : (s.countTimers).stack = s.stack := rfl
@[simp] theorem countTimers_sp (s : State) : (s.countTimers).sp = s.sp := rfl
@[simp] theorem countTimers_dt (s : State) : (s.countTimers).dt = countdown s.dt := rfl
@[simp] theorem countTimers_st (s : State) : (s.countTimers).st = countdown s.st := rfl
@[simp] theorem countTimers_mem (s : State) : (s.countTimers).mem = s.mem := rfl
@[simp] theorem countTimers_display (s : State) : (s.countTimers).display = s.display := rfl
@[simp] theorem countTimers_changed (s : State) : (s.countTimers).changed = s.changed := rfl
@[simp] theorem countTimers_keys (s : State) : (s.countTimers).keys = s.keys := rfl
@[simp] theorem countTimers_waiting (s : State) : (s.countTimers).waiting = s.waiting := rfl
@[simp] theorem countTimers_waitReg (s : State) : (s.countTimers).waitReg = s.waitReg := rfl
@[simp] theorem countTimers_fault (s : State) : (s.countTimers).fault = s.fault := rfl
@[simp] theorem countTimers_cfg (s : State) : (s.countTimers).cfg = s.cfg := rfl
@[simp] theorem countTimers_inputs (s : State) : (s.countTimers).inputs = s.inputs := rfl
@[simp] theorem countTimers_ticks (s : State) : (s.countTimers).ticks = s.ticks := rfl
@[simp] theorem countTimers_loaded (s : State) : (s.countTimers).loaded = s.loaded := rfl
@[simp] theorem countTimers_rnd (s : State) : (s.countTimers).rnd = s.rnd := rfl

/-! ### State.latch -/

@[simp] theorem latch_v (s : State) : (s.latch).v = s.v := rfl
@[simp] theorem latch_i (s : State) : (s.latch).i = s.i := rfl
@[simp] theorem latch_pc (s : State) : (s.latch).pc = s.pc := rfl
@[simp] theorem latch_stack (s : State) : (s.latch).stack = s.stack := rfl
@[simp] theorem latch_sp (s : State) : (s.latch).sp = s.sp := rfl
@[simp] theorem latch_dt (s : State) : (s.latch).dt = s.dt := rfl
@[simp] theorem latch_st (s : State) : (s.latch).st = s.st := rfl
@[simp] theorem latch_mem (s : State) : (s.latch).mem = s.mem := rfl
@[simp] theorem latch_display (s : State) : (s.latch).display = s.display := rfl
@[simp] theorem latch_changed (s : State) : (s.latch).changed = false := rfl
@[simp] theorem latch_keys (s : State) : (s.latch).keys = s.input.keys := rfl
@[simp] theorem latch_waiting (s : State) : (s.latch).waiting = s.waiting := rfl
@[simp] theorem latch_waitReg (s : State) : (s.latch).waitReg = s.waitReg := rfl
@[simp] theorem latch_fault (s : State) : (s.latch).fault = s.fault := rfl
@[simp] theorem latch_cfg (s : State) : (s.latch).cfg = s.cfg := rfl
@[simp] theorem latch_inputs (s : State) : (s.latch).inputs = s.inputs.tail := rfl
@[simp] theorem latch_ticks (s : State) : (s.latch).ticks = s.ticks + 1 := rfl
@[simp] theorem latch_loaded (s : State) : (s.latch).loaded = s.loaded := rfl
@[simp] theorem latch_rnd (s : State) : (s.latch).rnd = s.input.rnd := rfl

/-! ### State.subInto -/

@[simp] theorem subInto_v (s : State) (x a b : Reg) : (s.subInto x a b).v = s.v.set x (s.getV a - s.getV b) := rfl
@[simp] theorem subInto_i (s : State) (x a b : Reg) : (s.subInto x a b).i = s.i := rfl
@[simp] theorem subInto_pc (s : State) (x a b : Reg) : (s.subInto x a b).pc = s.pc := rfl
@[simp] theorem subInto_stack (s : State) (x a b : Reg) : (s.subInto x a b).stack = s.stack := rfl
@[simp] theorem subInto_sp (s : State) (x a b : Reg) : (s.subInto x a b).sp = s.sp := rfl
@[simp] theorem subInto_dt (s : State) (x a b : Reg) : (s.subInto x a b).dt = s.dt := rfl
@[simp] theorem subInto_st (s : State) (x a b : Reg) : (s.subInto x a b).st = s.st := rfl
@[simp] theorem subInto_mem (s : State) (x a b : Reg) : (s.subInto x a b).mem = s.mem := rfl
@[simp] theorem subInto_display (s : State) (x a b : Reg) : (s.subInto x a b).display = s.display := rfl
@[simp] theorem subInto_changed (s : State) (x a b : Reg) : (s.subInto x a b).changed = s.changed := rfl
@[simp] theorem subInto_keys (s : State) (x a b : Reg) : (s.subInto x a b).keys = s.keys := rfl
@[simp] theorem subInto_waiting (s : State) (x a b : Reg) : (s.subInto x a b).waiting = s.waiting := rfl
@[simp] theorem subInto_waitReg (s : State) (x a b : Reg) : (s.subInto x a b).waitReg = s.waitReg := rfl
@[simp] theorem subInto_fault (s : State) (x a b : Reg) : (s.subInto x a b).fault = s.fault := rfl
@[simp] theorem subInto_cfg (s : State) (x a b : Reg) : (s.subInto x a b).cfg = s.cfg := rfl
@[simp] theorem subInto_inputs (s : State) (x a b : Reg) : (s.subInto x a b).inputs = s.inputs := rfl
@[simp] theorem subInto_ticks (s : State) (x a b : Reg) : (s.subInto x a b).ticks = s.ticks := rfl
@[simp] theorem subInto_loaded (s : State) (x a b : Reg) : (s.subInto x a b).loaded = s.loaded := rfl
@[simp] theorem subInto_rnd (s : State) (x a b : Reg) : (s.subInto x a b).rnd = s.rnd := rfl

/-! ### State.modifyV -/

@[simp] theorem modifyV_v (s : State) (x : Reg) (f : Byte → Byte) : (s.modifyV x f).v = s.v.set x (f (s.getV x)) := rfl
@[simp] theorem modifyV_i (s : State) (x : Reg) (f : Byte → Byte) : (s.modifyV x f).i = s.i := rfl
@[simp] theorem modifyV_pc (s : State) (x : Reg) (f : Byte → Byte) : (s.modifyV x f).pc = s.pc := rfl
@[simp] theorem modifyV_stack (s : State) (x : Reg) (f : Byte → Byte) : (s.modifyV x f).stack = s.stack := rfl
@[simp] theorem modifyV_sp (s : State) (x : Reg) (f : Byte → Byte) : (s.modifyV x f).sp = s.sp := rfl
@[simp] theorem modifyV_dt (s : State) (x : Reg) (f : Byte → Byte) : (s.modifyV x f).dt = s.dt := rfl
@[simp] theorem modifyV_st (s : State) (x : Reg) (f : Byte → Byte) : (s.modifyV x f).st = s.st := rfl
@[simp] theorem modifyV_mem (s : State) (x : Reg) (f : Byte → Byte) : (s.modifyV x f).mem = s.mem := rfl
@[simp] theorem modifyV_display (s : State) (x : Reg) (f : Byte → Byte) : (s.modifyV x f).display = s.display := rfl
@[simp] theorem modifyV_changed (s : State) (x : Reg) (f : Byte → Byte) : (s.modifyV x f).changed = s.changed := rfl
@[simp] theorem modifyV_keys (s : State) (x : Reg) (f : Byte → Byte) : (s.modifyV x f).keys = s.keys := rfl
@[simp] theorem modifyV_waiting (s : State) (x : Reg) (f : Byte → Byte) : (s.modifyV x f).waiting = s.waiting := rfl
@[simp] theorem modifyV_waitReg (s : State) (x : Reg) (f : Byte → Byte) : (s.modifyV x f).waitReg = s.waitReg := rfl
@[simp] theorem modifyV_fault (s : State) (x : Reg) (f : Byte → Byte) : (s.modifyV x f).fault = s.fault := rfl
@[simp] theorem modifyV_cfg (s : State) (x : Reg) (f : Byte → Byte) : (s.modifyV x f).cfg = s.cfg := rfl
@[simp] theorem modifyV_inputs (s : State) (x : Reg) (f : Byte → Byte) : (s.modifyV x f).inputs = s.inputs := rfl
@[simp] theorem modifyV_ticks (s : State) (x : Reg) (f : Byte → Byte) : (s.modifyV x f).ticks = s.ticks := rfl
@[simp] theorem modifyV_loaded (s : State) (x : Reg) (f : Byte → Byte) : (s.modifyV x f).loaded = s.loaded := rfl
@[simp] theorem modifyV_rnd (s : State) (x : Reg) (f : Byte → Byte) : (s.modifyV x f).rnd = s.rnd := rfl

/-! ### State.pushReturn -/

@[simp] theorem pushReturn_v (s : State) (w : Word) : (s.pushReturn w).v = s.v := by unfold State.pushReturn; split <;> rfl
@[simp] theorem pushReturn_i (s : State) (w : Word) : (s.pushReturn w).i = s.i := by unfold State.pushReturn; split <;> rfl
@[simp] theorem pushReturn_pc (s : State) (w : Word) : (s.pushReturn w).pc = s.pc := by unfold State.pushReturn; split <;> rfl
@[simp] theorem pushReturn_stack (s : State) (w : Word) : (s.pushReturn w).stack = if h : s.sp < 16 then s.stack.set s.sp w else s.stack := by unfold State.pushReturn; split <;> rfl
@[simp] theorem pushReturn_sp (s : State) (w : Word) : (s.pushReturn w).sp = s.sp + 1 := by unfold State.pushReturn; split <;> rfl
@[simp] theorem pushReturn_dt (s : State) (w : Word) : (s.pushReturn w).dt = s.dt := by unfold State.pushReturn; split <;> rfl
@[simp] theorem pushReturn_st (s : State) (w : Word) : (s.pushReturn w).st = s.st := by unfold State.pushReturn; split <;> rfl
@[simp] theorem pushReturn_mem (s : State) (w : Word) : (s.pushReturn w).mem = s.mem := by unfold State.pushReturn; split <;> rfl
@[simp] theorem pushReturn_display (s : State) (w : Word) : (s.pushReturn w).display = s.display := by unfold State.pushReturn; split <;> rfl
@[simp] theorem pushReturn_changed (s : State) (w : Word) : (s.pushReturn w).changed = s.changed := by unfold State.pushReturn; split <;> rfl
@[simp] theorem pushReturn_keys (s : State) (w : Word) : (s.pushReturn w).keys = s.keys := by unfold State.pushReturn; split <;> rfl
@[simp] theorem pushReturn_waiting (s : State) (w : Word) : (s.pushReturn w).waiting = s.waiting := by unfold State.pushReturn; split <;> rfl
@[simp] theorem pushReturn_waitReg (s : State) (w : Word) : (s.pushReturn w).waitReg = s.waitReg := by unfold State.pushReturn; split <;> rfl
@[simp] theorem pushReturn_fault (s : State) (w : Word) : (s.pushReturn w).fault = s.fault := by unfold State.pushReturn; split <;> rfl
@[simp] theorem pushReturn_cfg (s : State) (w : Word) : (s.pushReturn w).cfg = s.cfg := by unfold State.pushReturn; split <;> rfl
@[simp] theorem pushReturn_inputs (s : State) (w : Word) : (s.pushReturn w).inputs = s.inputs := by unfold State.pushReturn; split <;> rfl
@[simp] theorem pushReturn_ticks (s : State) (w : Word) : (s.pushReturn w).ticks = s.ticks := by unfold State.pushReturn; split <;> rfl
@[simp] theorem pushReturn_loaded (s : State) (w : Word) : (s.pushReturn w).loaded = s.loaded := by unfold State.pushReturn; split <;> rfl
@[simp] theorem pushReturn_rnd (s : State) (w : Word) : (s.pushReturn w).rnd = s.rnd := by unfold State.pushReturn; split <;> rfl

/-! ### State.scanKeys -/

@[simp] theorem scanKeys_i (s : State) : (s.scanKeys).i = s.i := by unfold State.scanKeys; split <;> rfl
@[simp] theorem scanKeys_pc (s : State) : (s.scanKeys).pc = s.pc := by unfold State.scanKeys; split <;> rfl
@[simp] theorem scanKeys_stack (s : State) : (s.scanKeys).stack = s.stack := by unfold State.scanKeys; split <;> rfl
@[simp] theorem scanKeys_sp (s : State) : (s.scanKeys).sp = s.sp := by unfold State.scanKeys; split <;> rfl
@[simp] theorem scanKeys_dt (s : State) : (s.scanKeys).dt = s.dt := by unfold State.scanKeys; split <;> rfl
@[simp] theorem scanKeys_st (s : State) : (s.scanKeys).st = s.st := by unfold State.scanKeys; split <;> rfl
@[simp] theorem scanKeys_mem (s : State) : (s.scanKeys).mem = s.mem := by unfold State.scanKeys; split <;> rfl
@[simp] theorem scanKeys_display (s : State) : (s.scanKeys).display = s.display := by unfold State.scanKeys; split <;> rfl
@[simp] theorem scanKeys_changed (s : State) : (s.scanKeys).changed = s.changed := by unfold State.scanKeys; split <;> rfl
@[simp] theorem scanKeys_keys (s : State) : (s.scanKeys).keys = s.keys := by unfold State.scanKeys; split <;> rfl
@[simp] theorem scanKeys_waitReg (s : State) : (s.scanKeys).waitReg = s.waitReg := by unfold State.scanKeys; split <;> rfl
@[simp] theorem scanKeys_fault (s : State) : (s.scanKeys).fault = s.fault := by unfold State.scanKeys; split <;> rfl
@[simp] theorem scanKeys_cfg (s : State) : (s.scanKeys).cfg = s.cfg := by unfold State.scanKeys; split <;> rfl
@[simp] theorem scanKeys_inputs (s : State) : (s.scanKeys).inputs = s.inputs := by unfold State.scanKeys; split <;> rfl
@[simp] theorem scanKeys_ticks (s : State) : (s.scanKeys).ticks = s.ticks := by unfold State.scanKeys; split <;> rfl
@[simp] theorem scanKeys_loaded (s : State) : (s.scanKeys).loaded = s.loaded := by unfold State.scanKeys; split <;> rfl
@[simp] theorem scanKeys_rnd (s : State) : (s.scanKeys).rnd = s.rnd := by unfold State.scanKeys; split <;> rfl

/-! ### Reading a register -/

theorem getV_def (s : State) (x : Reg) : s.getV x = s.v[x] := rfl

/-- Reading any register after a write to one. -/
theorem getV_setV (s : State) (x y : Reg) (w : Byte) : (s.setV x w).getV y = if x = y then w else s.getV y := by
  simp [State.getV, State.setV, Vector.getElem_set, Fin.ext_iff]

@[simp] theorem getV_setV_same (s : State) (x : Reg) (w : Byte) : (s.setV x w).getV x = w := by simp [getV_setV]

@[simp] theorem getV_setV_other (s : State) (x y : Reg) (w : Byte) (h : x ≠ y) : (s.setV x w).getV y = s.getV y := by
  simp [getV_setV, h]

/-- Reading any register after a flag write. -/
theorem getV_setVF (s : State) (y : Reg) (w : Byte) : (s.setVF w).getV y = if 15 = y then w else s.getV y :=
  getV_setV s 15 y w

@[simp] theorem getV_setVF_same (s : State) (w : Byte) : (s.setVF w).getV 15 = w := getV_setV_same s 15 w

@[simp] theorem getV_setVF_other (s : State) (y : Reg) (w : Byte) (h : y ≠ 15) : (s.setVF w).getV y = s.getV y :=
  getV_setV_other s 15 y w (Ne.symm h)

/-- Two states with the same register file read the same. -/
theorem getV_congr {s t : State} (h : s.v = t.v) (x : Reg) : s.getV x = t.getV x := by simp [State.getV, h]

@[simp] theorem setI_getV (s : State) (w : Word) (y : Reg) : (s.setI w).getV y = s.getV y := getV_congr (setI_v ..) y
@[simp] theorem poke_getV (s : State) (a : Nat) (w : Byte) (y : Reg) : (s.poke a w).getV y = s.getV y := getV_congr (poke_v ..) y
@[simp] theorem jump_getV (s : State) (w : Word) (y : Reg) : (s.jump w).getV y = s.getV y := getV_congr (jump_v ..) y
@[simp] theorem advance_getV (s : State) (y : Reg) : (s.advance).getV y = s.getV y := getV_congr (advance_v ..) y
@[simp] theorem skipIf_getV (s : State) (c : Bool) (y : Reg) : (s.skipIf c).getV y = s.getV y := getV_congr (skipIf_v ..) y
@[simp] theorem shown_getV (s : State) (d : Display) (y : Reg) : (s.shown d).getV y = s.getV y := getV_congr (shown_v ..) y
@[simp] theorem latchFault_getV (s : State) (f : Fault) (y : Reg) : (s.latchFault f).getV y = s.getV y := getV_congr (latchFault_v ..) y
@[simp] theorem countTimers_getV (s : State) (y : Reg) : (s.countTimers).getV y = s.getV y := getV_congr (countTimers_v ..) y
@[simp] theorem latch_getV (s : State) (y : Reg) : (s.latch).getV y = s.getV y := getV_congr (latch_v ..) y
@[simp] theorem pushReturn_getV (s : State) (w : Word) (y : Reg) : (s.pushReturn w).getV y = s.getV y := getV_congr (pushReturn_v ..) y

/-! ### Reading a byte of memory -/

/-- Two states with the same memory and parameters read the same bytes. -/
theorem peek_congr {s t : State} (hm : s.mem = t.mem) (hc : s.cfg = t.cfg) (a : Nat) : s.peek a = t.peek a := by
  simp [State.peek, hm, hc]

@[simp] theorem setV_peek (s : State) (x : Reg) (w : Byte) (m : Nat) : (s.setV x w).peek m = s.peek m := peek_congr (setV_mem ..) (setV_cfg ..) m
@[simp] theorem setVF_peek (s : State) (w : Byte) (m : Nat) : (s.setVF w).peek m = s.peek m := peek_congr (setVF_mem ..) (setVF_cfg ..) m
@[simp] theorem setI_peek (s : State) (w : Word) (m : Nat) : (s.setI w).peek m = s.peek m := peek_congr (setI_mem ..) (setI_cfg ..) m
@[simp] theorem jump_peek (s : State) (w : Word) (m : Nat) : (s.jump w).peek m = s.peek m := peek_congr (jump_mem ..) (jump_cfg ..) m
@[simp] theorem advance_peek (s : State) (m : Nat) : (s.advance).peek m = s.peek m := peek_congr (advance_mem ..) (advance_cfg ..) m
@[simp] theorem skipIf_peek (s : State) (c : Bool) (m : Nat) : (s.skipIf c).peek m = s.peek m := peek_congr (skipIf_mem ..) (skipIf_cfg ..) m
@[simp] theorem shown_peek (s : State) (d : Display) (m : Nat) : (s.shown d).peek m = s.peek m := peek_congr (shown_mem ..) (shown_cfg ..) m
@[simp] theorem latchFault_peek (s : State) (f : Fault) (m : Nat) : (s.latchFault f).peek m = s.peek m := peek_congr (latchFault_mem ..) (latchFault_cfg ..) m
@[simp] theorem countTimers_peek (s : State) (m : Nat) : (s.countTimers).peek m = s.peek m := peek_congr (countTimers_mem ..) (countTimers_cfg ..) m
@[simp] theorem latch_peek (s : State) (m : Nat) : (s.latch).peek m = s.peek m := peek_congr (latch_mem ..) (latch_cfg ..) m
@[simp] theorem subInto_peek (s : State) (x a b : Reg) (m : Nat) : (s.subInto x a b).peek m = s.peek m := peek_congr (subInto_mem ..) (subInto_cfg ..) m
@[simp] theorem modifyV_peek (s : State) (x : Reg) (f : Byte → Byte) (m : Nat) : (s.modifyV x f).peek m = s.peek m := peek_congr (modifyV_mem ..) (modifyV_cfg ..) m
@[simp] theorem pushReturn_peek (s : State) (w : Word) (m : Nat) : (s.pushReturn w).peek m = s.peek m := peek_congr (pushReturn_mem ..) (pushReturn_cfg ..) m
@[simp] theorem scanKeys_peek (s : State) (m : Nat) : (s.scanKeys).peek m = s.peek m := peek_congr (scanKeys_mem ..) (scanKeys_cfg ..) m

end Sys2Proof.Machine
end

