-- ==== Sys2Proof/Laws/Memory.lean ====
section
/-! SUPPORT. The laws of memory: a write leaves every other address alone, a read after a write gives the byte written,
and every memory operation keeps the canonical form. -/

namespace Sys2Proof.Machine

variable {cfg : Config}

@[simp] theorem Memory.read_nil (a : Nat) : Memory.read cfg a [] = Memory.unlisted cfg a := rfl

theorem Memory.read_cons (a b : Nat) (w : Byte) (m : Memory) :
    Memory.read cfg a ((b, w) :: m) = if a = b then w else Memory.read cfg a m := rfl

/-- A write changes no other address, whatever the list. -/
theorem Memory.read_write_other {a b : Nat} (h : b ≠ a) (w : Byte) (m : Memory) :
    Memory.read cfg b (Memory.write cfg a w m) = Memory.read cfg b m := by
  induction m with
  | nil => unfold Memory.write; split <;> simp [Memory.read, h]
  | cons p m ih =>
    obtain ⟨c, u⟩ := p
    unfold Memory.write
    split
    · split <;> simp [Memory.read, h]
    · split
      · subst c; split <;> simp [Memory.read, h]
      · simp [Memory.read, ih]

/-- Above its bound, a canonical list says nothing of an address at or below the bound. -/
theorem Memory.read_below {lo : Nat} {m : Memory} (h : Memory.wfFrom cfg (some lo) m) {a : Nat} (ha : a ≤ lo) :
    Memory.read cfg a m = Memory.unlisted cfg a := by
  induction m generalizing lo with
  | nil => rfl
  | cons p m ih =>
    obtain ⟨b, w⟩ := p
    simp only [Memory.wfFrom, Bool.and_eq_true, decide_eq_true_eq] at h
    obtain ⟨⟨⟨hlo, -⟩, -⟩, hm⟩ := h
    replace hlo : lo < b := by simpa [Memory.above] using hlo
    rw [Memory.read_cons, if_neg (by omega), ih hm (by omega)]

/-- A canonical list stays one under a weaker bound. -/
theorem Memory.wfFrom_weaken {lo lo' : Option Nat} {m : Memory} (h : Memory.wfFrom cfg lo m)
    (hl : ∀ l', lo' = some l' → ∃ l, lo = some l ∧ l' ≤ l) : Memory.wfFrom cfg lo' m := by
  cases m with
  | nil => rfl
  | cons p m =>
    obtain ⟨b, w⟩ := p
    simp only [Memory.wfFrom, Bool.and_eq_true, decide_eq_true_eq] at h ⊢
    refine ⟨⟨⟨?_, h.1.1.2⟩, h.1.2⟩, h.2⟩
    cases lo' with
    | none => rfl
    | some l' =>
      obtain ⟨l, rfl, hle⟩ := hl l' rfl
      exact decide_eq_true (Nat.lt_of_le_of_lt hle (of_decide_eq_true h.1.1.1))

/-- Reading back what was written. -/
theorem Memory.read_write_sameFrom {lo : Option Nat} {m : Memory} (h : Memory.wfFrom cfg lo m) (a : Nat) (w : Byte) :
    Memory.read cfg a (Memory.write cfg a w m) = w := by
  induction m generalizing lo with
  | nil => unfold Memory.write; split <;> simp_all [Memory.read]
  | cons p m ih =>
    obtain ⟨b, u⟩ := p
    simp only [Memory.wfFrom, Bool.and_eq_true, decide_eq_true_eq] at h
    unfold Memory.write
    split
    · rename_i hab
      split
      · rename_i hw
        rw [Memory.read_cons, if_neg (by omega), Memory.read_below h.2 (by omega), hw]
      · simp [Memory.read]
    · split
      · subst a
        split
        · rename_i hw; rw [Memory.read_below h.2 (le_refl _), hw]
        · simp [Memory.read]
      · rw [Memory.read_cons, if_neg ‹_›, ih h.2]

theorem Memory.read_write_same {m : Memory} (h : Memory.wf cfg m) (a : Nat) (w : Byte) :
    Memory.read cfg a (Memory.write cfg a w m) = w := Memory.read_write_sameFrom h a w

/-- A write in range keeps the canonical form, and a bound below the address. -/
theorem Memory.wfFrom_write {lo : Option Nat} {m : Memory} (h : Memory.wfFrom cfg lo m) {a : Nat} (ha : a < 4096)
    (hl : ∀ l, lo = some l → l < a) (w : Byte) : Memory.wfFrom cfg lo (Memory.write cfg a w m) := by
  have bound : Memory.above lo a = true := by
    cases lo with
    | none => rfl
    | some l => exact decide_eq_true (hl l rfl)
  induction m generalizing lo with
  | nil => unfold Memory.write; split <;> simp_all [Memory.wfFrom]
  | cons p m ih =>
    obtain ⟨b, u⟩ := p
    have h' := h
    simp only [Memory.wfFrom, Bool.and_eq_true, decide_eq_true_eq] at h
    unfold Memory.write
    split
    · split
      · exact h'
      · simp only [Memory.wfFrom, Bool.and_eq_true, decide_eq_true_eq]
        exact ⟨⟨⟨bound, ha⟩, ‹_›⟩, ⟨⟨decide_eq_true ‹a < b›, h.1.1.2⟩, h.1.2⟩, h.2⟩
    · split
      · subst b
        split
        · exact Memory.wfFrom_weaken h.2 fun l hl' => ⟨a, rfl, Nat.le_of_lt (hl l hl')⟩
        · simp only [Memory.wfFrom, Bool.and_eq_true, decide_eq_true_eq]
          exact ⟨⟨⟨bound, ha⟩, ‹_›⟩, h.2⟩
      · simp only [Memory.wfFrom, Bool.and_eq_true, decide_eq_true_eq]
        have hba : b < a := by omega
        exact ⟨⟨⟨h.1.1.1, h.1.1.2⟩, h.1.2⟩,
          ih h.2 (fun l hl' => by cases hl'; exact hba) (decide_eq_true hba)⟩

/-- Every write in range keeps the canonical form. -/
theorem Memory.wf_write {m : Memory} (h : Memory.wf cfg m) {a : Nat} (ha : a < 4096) (w : Byte) :
    Memory.wf cfg (Memory.write cfg a w m) := Memory.wfFrom_write h ha (by simp) w

/-- Reset memory, with nothing listed, is canonical. -/
theorem Memory.wf_nil : Memory.wf cfg [] := rfl

/-- A block in range keeps the canonical form. -/
theorem Memory.wf_writeBlock {m : Memory} (h : Memory.wf cfg m) (a : Nat) (ws : List Byte) (ha : a + ws.length ≤ 4096) :
    Memory.wf cfg (Memory.writeBlock cfg a ws m) := by
  induction ws generalizing a with
  | nil => exact h
  | cons w ws ih =>
    simp only [List.length_cons] at ha
    exact Memory.wf_write (ih (a + 1) (by omega)) (by omega) w

/-- A block leaves every address outside it alone. -/
theorem Memory.read_writeBlock_outside (m : Memory) (a : Nat) (ws : List Byte) {b : Nat}
    (hb : b < a ∨ a + ws.length ≤ b) : Memory.read cfg b (Memory.writeBlock cfg a ws m) = Memory.read cfg b m := by
  induction ws generalizing a with
  | nil => rfl
  | cons w ws ih =>
    simp only [List.length_cons] at hb
    rw [Memory.writeBlock, Memory.read_write_other (by omega), ih (a + 1) (by omega)]

/-- A block reads back byte for byte. -/
theorem Memory.read_writeBlock {m : Memory} (h : Memory.wf cfg m) (a : Nat) (ws : List Byte) (ha : a + ws.length ≤ 4096)
    (k : Nat) (hk : k < ws.length) : Memory.read cfg (a + k) (Memory.writeBlock cfg a ws m) = ws[k] := by
  induction ws generalizing a k with
  | nil => simp at hk
  | cons w ws ih =>
    simp only [List.length_cons] at ha hk
    rw [Memory.writeBlock]
    cases k with
    | zero => simpa using Memory.read_write_same (Memory.wf_writeBlock h (a + 1) ws (by omega)) a w
    | succ k =>
      rw [Memory.read_write_other (by omega), show a + (k + 1) = a + 1 + k by omega, ih (a + 1) (by omega) k (by omega)]
      simp

/-! ### The same, through the state -/

/-- R66: memory holds what was last written to it. -/
theorem peek_poke_same (s : State) (h : Memory.wf s.cfg s.mem) (a : Nat) (w : Byte) : (s.poke a w).peek a = w := by
  simpa [State.peek] using Memory.read_write_same h a w

theorem peek_poke_other (s : State) {a b : Nat} (h : b ≠ a) (w : Byte) : (s.poke a w).peek b = s.peek b := by
  simpa [State.peek] using Memory.read_write_other (cfg := s.cfg) h w s.mem

/-- The canonical form, of a state. -/
theorem wf_poke (s : State) (h : Memory.wf s.cfg s.mem) {a : Nat} (ha : a < 4096) (w : Byte) :
    Memory.wf (s.poke a w).cfg (s.poke a w).mem := by simpa using Memory.wf_write h ha w

end Sys2Proof.Machine
end

