-- ==== Sys2Proof/Laws/Ops.lean ====
section
/-! SUPPORT. One lemma per shared operation, saying everything it can do; a later proof cites it and does not unfold the
operation. -/

namespace Sys2Proof.Machine

/-! ### Operands -/

theorem zext16_toNat (nnn : Imm12) : (zext16 nnn).toNat = nnn.toNat := by
  have := nnn.isLt
  simp only [zext16, BitVec.toNat_setWidth]
  omega

theorem zext16Byte_toNat (b : Byte) : (zext16Byte b).toNat = b.toNat := by
  have := b.isLt
  simp only [zext16Byte, BitVec.toNat_setWidth]
  omega

theorem glyphAddr_toNat (b : Byte) : (glyphAddr b).toNat = b.toNat * 5 := by
  have := b.isLt
  simp only [glyphAddr, BitVec.toNat_mul, zext16Byte_toNat, show (5 : Word).toNat = 5 from rfl]
  omega

@[simp] theorem regsUpTo_length (x : Reg) : (regsUpTo x).length = x.val + 1 := by
  simp [regsUpTo]

/-- The k-th register of the block 0..x is register k. -/
@[simp] theorem regsUpTo_getElem (x : Reg) (k : Nat) (h : k < (regsUpTo x).length) :
    (regsUpTo x)[k] = ⟨k, by simp at h; omega⟩ := by
  simp [regsUpTo]

theorem mem_regsUpTo (x y : Reg) : y ∈ regsUpTo x ↔ y.val ≤ x.val := by
  constructor
  · intro h
    obtain ⟨k, hk, rfl⟩ := List.getElem_of_mem h
    simp at hk ⊢
    omega
  · intro h
    have hk : y.val < (regsUpTo x).length := by simp; omega
    have := List.getElem_mem hk
    simpa using this

theorem regsUpTo_nodup (x : Reg) : (regsUpTo x).Nodup := (List.nodup_finRange 16).sublist (List.take_sublist ..)

@[simp] theorem decimalDigits_length (b : Byte) : (decimalDigits b).length = 3 := rfl

theorem keyNumber_lt {b : Byte} (h : b.toNat < 16) : keyNumber b = some ⟨b.toNat, h⟩ := dif_pos h

theorem keyNumber_ge {b : Byte} (h : 16 ≤ b.toNat) : keyNumber b = none := dif_neg (by omega)

/-! ### Faults and the stack -/

@[simp] theorem raise_eq (s : State) (cause : Word → Fault) : s.raise cause = .fault (cause (s.pc - 2)) := rfl

/-- R150 in its three cases. -/
theorem popReturn_cases (s : State) :
    (s.sp = 0 ∧ s.popReturn = .fault (.stackUnderflow (s.pc - 2))) ∨
    (∃ h : 1 ≤ s.sp ∧ s.sp ≤ 16,
      s.popReturn = .next { s with sp := s.sp - 1, pc := s.stack[s.sp - 1]'(by omega) }) ∨
    (16 < s.sp ∧ s.popReturn = .fault (.stackSlotOutOfRange (s.pc - 2) (s.sp - 1))) := by
  unfold State.popReturn
  split
  · exact .inl ⟨‹_›, rfl⟩
  · rename_i k hk
    by_cases h : k < 16
    · refine .inr (.inl ⟨by omega, ?_⟩)
      simp [h, hk]
    · refine .inr (.inr ⟨by omega, ?_⟩)
      simp [h, hk]

/-! ### Data memory -/

/-- R63, R73: reading a run of bytes, in all its cases. -/
theorem readBytes_eq (s : State) (a n : Nat) : s.readBytes a n =
    if n = 0 ∨ a + n ≤ 4096 then .ok ((List.range n).map fun k => s.peek (a + k))
    else .error (.memReadOutOfRange (s.pc - 2) (max a 4096)) := by
  induction n generalizing a with
  | zero => simp [State.readBytes]
  | succ n ih =>
    unfold State.readBytes
    by_cases ha : a < 4096
    · rw [if_pos ha, ih]
      by_cases hn : n = 0 ∨ a + 1 + n ≤ 4096
      · rw [if_pos hn, if_pos (by omega)]
        simp [Except.map, List.range_succ_eq_map, Function.comp_def, Nat.add_assoc, Nat.add_comm 1]
      · rw [if_neg hn, if_neg (by omega), show max (a + 1) 4096 = max a 4096 by omega]
        rfl
    · rw [if_neg ha, if_neg (by omega), show max a 4096 = a by omega]
      rfl

/-- R63, R73: storing a run of bytes that fits changes memory only, there as told and nowhere else. -/
theorem storeBytes_fits (s : State) (a : Nat) (ws : List Byte) (h : a + ws.length ≤ 4096) :
    ∃ m, s.storeBytes a ws = .next { s with mem := m } ∧
      (∀ b, b < a ∨ a + ws.length ≤ b → Memory.read s.cfg b m = Memory.read s.cfg b s.mem) ∧
      (Memory.wf s.cfg s.mem → Memory.wf s.cfg m ∧
        ∀ k (hk : k < ws.length), Memory.read s.cfg (a + k) m = ws[k]) := by
  induction ws generalizing s a with
  | nil => exact ⟨s.mem, rfl, fun _ _ => rfl, fun hw => ⟨hw, fun k hk => by simp at hk⟩⟩
  | cons w ws ih =>
    simp only [List.length_cons] at h
    obtain ⟨m, hm, hout, hin⟩ := ih (s.poke a w) (a + 1) (by omega)
    refine ⟨m, ?_, ?_, ?_⟩
    · unfold State.storeBytes
      rw [if_pos (by omega), hm]
      rfl
    · intro b hb
      simp only [List.length_cons] at hb
      have := hout b (by omega)
      simp only [poke_cfg, poke_mem] at this
      rw [this, Memory.read_write_other (by omega)]
    · intro hw
      obtain ⟨hwm, hk⟩ := hin (wf_poke s hw (by omega) w)
      refine ⟨by simpa using hwm, fun k hk' => ?_⟩
      cases k with
      | zero =>
        have := hout a (by omega)
        simp only [poke_cfg, poke_mem] at this
        simpa [this] using Memory.read_write_same hw a w
      | succ k =>
        have := hk k (by simpa using hk')
        simpa [show a + (k + 1) = a + 1 + k by omega] using this

/-- R63, R73: storing a run of bytes that does not fit faults at the first address out of range. -/
theorem storeBytes_overruns (s : State) (a : Nat) (ws : List Byte) (hne : ws ≠ []) (h : 4096 < a + ws.length) :
    s.storeBytes a ws = .fault (.memWriteOutOfRange (s.pc - 2) (max a 4096)) := by
  induction ws generalizing s a with
  | nil => exact absurd rfl hne
  | cons w ws ih =>
    simp only [List.length_cons] at h
    unfold State.storeBytes
    by_cases ha : a < 4096
    · rw [if_pos ha, ih (s.poke a w) (a + 1) (by rintro rfl; simp at h; omega) (by omega),
        show max (a + 1) 4096 = max a 4096 by omega]
      simp
    · rw [if_neg ha, show max a 4096 = a by omega]
      rfl

/-- R63, R73, R205: loading registers from a run of bytes that fits changes the register file only. -/
theorem loadRegs_fits (s : State) (a : Nat) (ks : List Reg) (hks : ks.Nodup) (h : a + ks.length ≤ 4096) :
    ∃ t, s.loadRegs a ks = .next t ∧ t = { s with v := t.v } ∧
      (∀ k (hk : k < ks.length), t.getV ks[k] = s.peek (a + k)) ∧ (∀ y, y ∉ ks → t.getV y = s.getV y) := by
  induction ks generalizing s a with
  | nil => exact ⟨s, rfl, rfl, fun k hk => by simp at hk, fun _ _ => rfl⟩
  | cons x ks ih =>
    simp only [List.length_cons] at h
    obtain ⟨hx, hks⟩ := List.nodup_cons.mp hks
    obtain ⟨t, ht, hrest, hin, hout⟩ := ih (s.setV x (s.peek a)) (a + 1) hks (by omega)
    refine ⟨t, ?_, ?_, ?_, ?_⟩
    · unfold State.loadRegs
      rw [if_pos (by omega), ht]
    · rw [hrest]; rfl
    · intro k hk
      cases k with
      | zero => simpa using hout x hx
      | succ k =>
        have := hin k (by simpa using hk)
        simpa [show a + (k + 1) = a + 1 + k by omega] using this
    · intro y hy
      simp only [List.mem_cons, not_or] at hy
      rw [hout y hy.2, getV_setV_other _ _ _ _ (Ne.symm hy.1)]

/-- R63, R73: loading registers from a run of bytes that does not fit faults at the first address out of range. -/
theorem loadRegs_overruns (s : State) (a : Nat) (ks : List Reg) (hne : ks ≠ []) (h : 4096 < a + ks.length) :
    s.loadRegs a ks = .fault (.memReadOutOfRange (s.pc - 2) (max a 4096)) := by
  induction ks generalizing s a with
  | nil => exact absurd rfl hne
  | cons x ks ih =>
    simp only [List.length_cons] at h
    unfold State.loadRegs
    by_cases ha : a < 4096
    · rw [if_pos ha, ih (s.setV x _) (a + 1) (by rintro rfl; simp at h; omega) (by omega),
        show max (a + 1) 4096 = max a 4096 by omega]
      simp
    · rw [if_neg ha, show max a 4096 = a by omega]
      rfl

/-! ### Keys -/

/-- R240, R241: a key number in range. -/
theorem withKey_in (s : State) {b : Byte} (h : b.toNat < 16) (next : Bool → State) :
    s.withKey b next = .next (next s.keys[b.toNat]) := by
  simp [State.withKey, keyNumber_lt h]

/-- D5: a key number out of range. -/
theorem withKey_out (s : State) {b : Byte} (h : 16 ≤ b.toNat) (next : Bool → State) :
    s.withKey b next = .fault (.keyIndexOutOfRange (s.pc - 2) b) := by
  simp [State.withKey, keyNumber_ge h]

/-- R122: the lowest pressed key is pressed and no lower one is. -/
theorem lowestKey_some {s : State} {k : Fin 16} (h : s.lowestKey = some k) :
    s.keys[k] = true ∧ ∀ j : Fin 16, j < k → s.keys[j] = false := by
  obtain ⟨hk, as, bs, hl, has⟩ := List.find?_eq_some_iff_append.mp h
  refine ⟨hk, fun j hj => ?_⟩
  have hj' : j ∈ as := by
    have hmem : j ∈ as ++ k :: bs := hl ▸ List.mem_finRange j
    rcases List.mem_append.mp hmem with h | h
    · exact h
    · exfalso
      have hsorted : (as ++ k :: bs).Pairwise (· < ·) := hl ▸ List.pairwise_lt_finRange 16
      rcases List.mem_cons.mp h with rfl | h
      · exact lt_irrefl _ hj
      · exact lt_asymm hj ((List.pairwise_cons.mp (List.pairwise_append.mp hsorted).2.1).1 j h)
  simpa using has j hj'

/-- R124: no key is pressed. -/
theorem lowestKey_none {s : State} (h : s.lowestKey = none) (k : Fin 16) : s.keys[k] = false := by
  simpa using List.find?_eq_none.mp h k (List.mem_finRange k)

/-! ### Display -/

theorem Display.cell_xorCell (d : Display) (r r' : Fin 32) (c c' : Fin 64) (bit : Bool) :
    (d.xorCell r c bit).cell r' c' = (d.cell r' c' ^^ (bit && decide (r = r' ∧ c = c'))) := by
  unfold Display.xorCell Display.cell
  cases bit with
  | false => simp
  | true =>
    by_cases hr : r = r'
    · subst hr
      simp [Fin.ext_iff, eq_comm]
    · have : r.val ≠ r'.val := fun h => hr (Fin.ext h)
      simp [this, hr]

@[simp] theorem Display.cell_blank (r : Fin 32) (c : Fin 64) : Display.blank.cell r c = false := by
  simp [Display.blank, Display.cell]

/-- Two displays with the same cells are the same display. -/
theorem Display.ext_cell {d e : Display} (h : ∀ r c, d.cell r c = e.cell r c) : d = e := by
  refine Vector.ext fun r hr => BitVec.eq_of_getLsbD_eq fun c hc => ?_
  exact h ⟨r, hr⟩ ⟨c, hc⟩

end Sys2Proof.Machine
end

