-- ==== Sys2Proof/Laws/Draw.lean ====
section
/-! SUPPORT. What drawing a sprite does to the display and to the collision flag, cell by cell (spec/44_display.md R221,
R222): no cell is touched twice, so each touched cell is XORed with its one sprite bit. -/

namespace Sys2Proof.Machine

theorem wrapCol_inj {cx j k : Nat} (hj : j < 8) (hk : k < 8) (h : wrapCol (cx + j) = wrapCol (cx + k)) : j = k := by
  have := congrArg Fin.val h
  simp only [wrapCol, Fin.val_ofNat] at this
  omega

theorem wrapRow_inj {row r k : Nat} (hr : r < 32) (hk : k < 32) (h : wrapRow (row + r) = wrapRow (row + k)) : r = k := by
  have := congrArg Fin.val h
  simp only [wrapRow, Fin.val_ofNat] at this
  omega

/-- The bits of one sprite byte, in any order without repeats. -/
theorem plotBits_spec (js : List Nat) (hnd : js.Nodup) (h8 : ∀ j ∈ js, j < 8) (p : Canvas) (row cx : Nat) (b : Byte) :
    let q := js.foldl (fun p j => p.plot row (cx + j) (spriteBit b j)) p
    (∀ j ∈ js, q.display.cell (wrapRow row) (wrapCol (cx + j)) =
      (p.display.cell (wrapRow row) (wrapCol (cx + j)) ^^ spriteBit b j)) ∧
    (∀ r c, (r = wrapRow row → ∀ j ∈ js, c ≠ wrapCol (cx + j)) → q.display.cell r c = p.display.cell r c) ∧
    (q.hit = true ↔ p.hit = true ∨
      ∃ j ∈ js, spriteBit b j = true ∧ p.display.cell (wrapRow row) (wrapCol (cx + j)) = true) := by
  induction js generalizing p with
  | nil => simp
  | cons j js ih =>
    obtain ⟨hj, hnd⟩ := List.nodup_cons.mp hnd
    have hj8 := h8 j (by simp)
    have hother : ∀ k ∈ js, wrapCol (cx + j) ≠ wrapCol (cx + k) := fun k hk h => by
      have := wrapCol_inj hj8 (h8 k (by simp [hk])) h
      exact hj (this ▸ hk)
    obtain ⟨hin, hout, hhit⟩ := ih hnd (fun k hk => h8 k (by simp [hk])) (p.plot row (cx + j) (spriteBit b j))
    have hplot : ∀ k ∈ js, (p.plot row (cx + j) (spriteBit b j)).display.cell (wrapRow row) (wrapCol (cx + k)) =
        p.display.cell (wrapRow row) (wrapCol (cx + k)) := fun k hk => by
      simp [Canvas.plot, Display.cell_xorCell, hother k hk]
    refine ⟨?_, ?_, ?_⟩
    · intro k hk
      rcases List.mem_cons.mp hk with rfl | hk
      · rw [List.foldl_cons, hout _ _ fun _ => hother]
        simp [Canvas.plot, Display.cell_xorCell]
      · rw [List.foldl_cons, hin k hk, hplot k hk]
    · intro r c hrc
      rw [List.foldl_cons, hout r c fun hr k hk => hrc hr k (by simp [hk])]
      have : ¬ (wrapRow row = r ∧ wrapCol (cx + j) = c) := fun h => hrc h.1.symm j (by simp) h.2.symm
      simp only [Canvas.plot, Display.cell_xorCell]
      rw [decide_eq_false this]
      simp
    · rw [List.foldl_cons, hhit]
      constructor
      · rintro (h | ⟨k, hk, hb, hc⟩)
        · simp only [Canvas.plot, Bool.or_eq_true, Bool.and_eq_true] at h
          rcases h with h | h
          · exact .inl h
          · exact .inr ⟨j, by simp, h.1, h.2⟩
        · exact .inr ⟨k, by simp [hk], hb, hplot k hk ▸ hc⟩
      · rintro (h | ⟨k, hk, hb, hc⟩)
        · exact .inl (by simp [Canvas.plot, h])
        · rcases List.mem_cons.mp hk with rfl | hk
          · exact .inl (by simp [Canvas.plot, hb, hc])
          · exact .inr ⟨k, hk, hb, (hplot k hk).symm ▸ hc⟩

/-- R221, R222: a whole sprite of at most 32 rows, drawn from row `row` and column `cx`. -/
theorem drawRows_spec (bs : List Byte) (hlen : bs.length ≤ 32) (p : Canvas) (row cx : Nat) :
    (∀ (k : Nat) (hk : k < bs.length) (j : Nat), j < 8 →
      (p.drawRows row cx bs).display.cell (wrapRow (row + k)) (wrapCol (cx + j)) =
        (p.display.cell (wrapRow (row + k)) (wrapCol (cx + j)) ^^ spriteBit bs[k] j)) ∧
    (∀ r c, (∀ k j, k < bs.length → j < 8 → ¬ (r = wrapRow (row + k) ∧ c = wrapCol (cx + j))) →
      (p.drawRows row cx bs).display.cell r c = p.display.cell r c) ∧
    ((p.drawRows row cx bs).hit = true ↔ p.hit = true ∨
      ∃ (k : Nat) (hk : k < bs.length) (j : Nat), j < 8 ∧ spriteBit bs[k] j = true ∧
        p.display.cell (wrapRow (row + k)) (wrapCol (cx + j)) = true) := by
  induction bs generalizing p row with
  | nil => simp [Canvas.drawRows]
  | cons b bs ih =>
    simp only [List.length_cons] at hlen
    obtain ⟨hin0, hout0, hhit0⟩ :=
      plotBits_spec (List.range 8) List.nodup_range (by simp) p row cx b
    obtain ⟨hin, hout, hhit⟩ := ih (by omega) (p.drawByte row cx b) (row + 1)
    have hrow : ∀ k, k < bs.length → wrapRow row ≠ wrapRow (row + 1 + k) := fun k hk h => by
      have := wrapRow_inj (row := row) (r := 0) (k := k + 1) (by omega) (by omega)
        (by simpa [Nat.add_assoc, Nat.add_comm 1] using h)
      omega
    have hkeep : ∀ k c, k < bs.length → (p.drawByte row cx b).display.cell (wrapRow (row + 1 + k)) c =
        p.display.cell (wrapRow (row + 1 + k)) c := fun k c hk =>
      hout0 _ _ fun h => absurd h.symm (hrow k hk)
    refine ⟨?_, ?_, ?_⟩
    · intro k hk j hj
      cases k with
      | zero =>
        exact (hout _ _ fun k' j' hk' _ h => hrow k' hk' h.1).trans (hin0 j (by simpa using hj))
      | succ k =>
        have hk' : k < bs.length := by simpa using hk
        have := hin k hk' j hj
        rw [hkeep k _ hk'] at this
        simpa [Canvas.drawRows, show row + (k + 1) = row + 1 + k by omega] using this
    · intro r c hrc
      rw [Canvas.drawRows, hout r c fun k j hk hj h =>
        hrc (k + 1) j (by simpa using hk) hj ⟨by rw [h.1]; congr 1; omega, h.2⟩]
      exact hout0 r c fun hr j hj hc => hrc 0 j (by simp) (by simpa using hj) ⟨hr, hc⟩
    · rw [Canvas.drawRows, hhit]
      constructor
      · rintro (h | ⟨k, hk, j, hj, hb, hc⟩)
        · rcases hhit0.mp h with h | ⟨j, hj, hb, hc⟩
          · exact .inl h
          · exact .inr ⟨0, by simp, j, by simpa using hj, hb, hc⟩
        · rw [hkeep k _ hk] at hc
          refine .inr ⟨k + 1, by simpa using hk, j, hj, by simpa using hb, ?_⟩
          rwa [show row + (k + 1) = row + 1 + k by omega]
      · rintro (h | ⟨k, hk, j, hj, hb, hc⟩)
        · exact .inl (hhit0.mpr (.inl h))
        · cases k with
          | zero => exact .inl (hhit0.mpr (.inr ⟨j, by simpa using hj, by simpa using hb, hc⟩))
          | succ k =>
            have hk' : k < bs.length := by simpa using hk
            refine .inr ⟨k, hk', j, hj, by simpa using hb, ?_⟩
            rw [hkeep k _ hk']
            rwa [show row + (k + 1) = row + 1 + k by omega] at hc

end Sys2Proof.Machine
end

