-- ==== Sys2Proof/Laws/Encoding.lean ====
section
/-! SUPPORT. Reading back each field of a word put together by a format (spec/30_encoding.md R91, R92): no bit of an operand
is dropped and none lands in another field. -/

namespace Sys2Proof

@[simp] theorem fieldOp_formatA (op : BitVec 4) (nnn : Imm12) : fieldOp (formatA op nnn) = op.toFin := by
  have h : (formatA op nnn).extractLsb' 12 4 = op := by
    unfold formatA
    ext i hi
    simp only [BitVec.getElem_extractLsb', BitVec.getLsbD_append]
    interval_cases i <;> simp [BitVec.getLsbD_eq_getElem]
  exact congrArg BitVec.toFin h

@[simp] theorem fieldNnn_formatA (op : BitVec 4) (nnn : Imm12) : fieldNnn (formatA op nnn) = nnn := by
  unfold fieldNnn formatA
  ext i hi
  simp only [BitVec.getElem_extractLsb', BitVec.getLsbD_append]
  interval_cases i <;> simp [BitVec.getLsbD_eq_getElem]

@[simp] theorem fieldOp_formatI (op : BitVec 4) (x : Reg) (kk : Byte) : fieldOp (formatI op x kk) = op.toFin := by
  have h : (formatI op x kk).extractLsb' 12 4 = op := by
    unfold formatI
    ext i hi
    simp only [BitVec.getElem_extractLsb', BitVec.getLsbD_append]
    interval_cases i <;> simp [BitVec.getLsbD_eq_getElem]
  exact congrArg BitVec.toFin h

@[simp] theorem fieldX_formatI (op : BitVec 4) (x : Reg) (kk : Byte) : fieldX (formatI op x kk) = x := by
  have h : (formatI op x kk).extractLsb' 8 4 = nibble x := by
    unfold formatI
    ext i hi
    simp only [BitVec.getElem_extractLsb', BitVec.getLsbD_append]
    interval_cases i <;> simp [BitVec.getLsbD_eq_getElem]
  exact congrArg BitVec.toFin h

@[simp] theorem fieldKk_formatI (op : BitVec 4) (x : Reg) (kk : Byte) : fieldKk (formatI op x kk) = kk := by
  unfold fieldKk formatI
  ext i hi
  simp only [BitVec.getElem_extractLsb', BitVec.getLsbD_append]
  interval_cases i <;> simp [BitVec.getLsbD_eq_getElem]

@[simp] theorem fieldOp_formatR (op : BitVec 4) (x y : Reg) (m : BitVec 4) : fieldOp (formatR op x y m) = op.toFin := by
  have h : (formatR op x y m).extractLsb' 12 4 = op := by
    unfold formatR
    ext i hi
    simp only [BitVec.getElem_extractLsb', BitVec.getLsbD_append]
    interval_cases i <;> simp [BitVec.getLsbD_eq_getElem]
  exact congrArg BitVec.toFin h

@[simp] theorem fieldX_formatR (op : BitVec 4) (x y : Reg) (m : BitVec 4) : fieldX (formatR op x y m) = x := by
  have h : (formatR op x y m).extractLsb' 8 4 = nibble x := by
    unfold formatR
    ext i hi
    simp only [BitVec.getElem_extractLsb', BitVec.getLsbD_append]
    interval_cases i <;> simp [BitVec.getLsbD_eq_getElem]
  exact congrArg BitVec.toFin h

@[simp] theorem fieldY_formatR (op : BitVec 4) (x y : Reg) (m : BitVec 4) : fieldY (formatR op x y m) = y := by
  have h : (formatR op x y m).extractLsb' 4 4 = nibble y := by
    unfold formatR
    ext i hi
    simp only [BitVec.getElem_extractLsb', BitVec.getLsbD_append]
    interval_cases i <;> simp [BitVec.getLsbD_eq_getElem]
  exact congrArg BitVec.toFin h

@[simp] theorem fieldN_formatR (op : BitVec 4) (x y : Reg) (m : BitVec 4) : fieldN (formatR op x y m) = m.toFin := by
  have h : (formatR op x y m).extractLsb' 0 4 = m := by
    unfold formatR
    ext i hi
    simp only [BitVec.getElem_extractLsb', BitVec.getLsbD_append]
    interval_cases i <;> simp [BitVec.getLsbD_eq_getElem]
  exact congrArg BitVec.toFin h

@[simp] theorem fieldOp_formatX (op : BitVec 4) (x : Reg) (m : Byte) : fieldOp (formatX op x m) = op.toFin := by
  have h : (formatX op x m).extractLsb' 12 4 = op := by
    unfold formatX
    ext i hi
    simp only [BitVec.getElem_extractLsb', BitVec.getLsbD_append]
    interval_cases i <;> simp [BitVec.getLsbD_eq_getElem]
  exact congrArg BitVec.toFin h

@[simp] theorem fieldX_formatX (op : BitVec 4) (x : Reg) (m : Byte) : fieldX (formatX op x m) = x := by
  have h : (formatX op x m).extractLsb' 8 4 = nibble x := by
    unfold formatX
    ext i hi
    simp only [BitVec.getElem_extractLsb', BitVec.getLsbD_append]
    interval_cases i <;> simp [BitVec.getLsbD_eq_getElem]
  exact congrArg BitVec.toFin h

@[simp] theorem fieldKk_formatX (op : BitVec 4) (x : Reg) (m : Byte) : fieldKk (formatX op x m) = m := by
  unfold fieldKk formatX
  ext i hi
  simp only [BitVec.getElem_extractLsb', BitVec.getLsbD_append]
  interval_cases i <;> simp [BitVec.getLsbD_eq_getElem]

/-- R62, R64: the two bytes of a word in memory order give the word back. -/
@[simp] theorem wordOfBytes_bytesOfWord (w : Word) :
    wordOfBytes (w.extractLsb' 8 8) (w.extractLsb' 0 8) = w := by
  unfold wordOfBytes
  ext i hi
  simp only [BitVec.getElem_append, BitVec.getElem_extractLsb']
  interval_cases i <;> simp [BitVec.getLsbD_eq_getElem]

end Sys2Proof
end

