-- ==== Sys2Proof/Laws/Step.lean ====
section
/-! SUPPORT. What a tick can do, said once: it answers the latched fault, or spends the tick waiting, or fetches and
executes. Later proofs split a step by these lemmas and do not unfold it. -/

namespace Sys2Proof.Machine

/-- R120 in its four cases. -/
theorem step_cases (s : State) :
    (∃ f, s.fault = some f ∧ step s = .fault f) ∨
    (s.fault = none ∧ s.waiting = true ∧ step s = .next s.latch.scanKeys) ∨
    (s.fault = none ∧ s.waiting = false ∧ 0xFFF ≤ s.pc.toNat ∧ step s = .fault (.fetchOutOfRange s.pc)) ∨
    (s.fault = none ∧ s.waiting = false ∧ s.pc.toNat < 0xFFF ∧
      step s = execWord s.wordAtPc s.latch.countTimers.advance) := by
  unfold step tick
  split
  · exact .inl ⟨_, ‹_›, rfl⟩
  · rename_i hf
    cases hw : s.waiting with
    | true => exact .inr (.inl ⟨hf, rfl, by simp⟩)
    | false =>
      by_cases hp : s.pc.toNat < 0xFFF
      · refine .inr (.inr (.inr ⟨hf, rfl, hp, ?_⟩))
        simp [State.runInstr, State.fetch, hp, State.wordAtPc, wordOfBytes]
      · refine .inr (.inr (.inl ⟨hf, rfl, by omega, ?_⟩))
        simp [State.runInstr, State.fetch, hp]

/-- What a step that answers a next state has done. -/
theorem step_next {s t : State} (h : step s = .next t) : s.fault = none ∧
    ((s.waiting = true ∧ t = s.latch.scanKeys) ∨
     (s.waiting = false ∧ s.pc.toNat < 0xFFF ∧ execWord s.wordAtPc s.latch.countTimers.advance = .next t)) := by
  rcases step_cases s with ⟨f, -, hs⟩ | ⟨hf, hw, hs⟩ | ⟨-, -, -, hs⟩ | ⟨hf, hw, hp, hs⟩
  · rw [hs] at h; cases h
  · rw [hs] at h; cases h; exact ⟨hf, .inl ⟨hw, rfl⟩⟩
  · rw [hs] at h; cases h
  · exact ⟨hf, .inr ⟨hw, hp, hs ▸ h⟩⟩

/-- R128: a word that selects a row runs that row's meaning. -/
theorem execWord_ok {w : Word} {i : Instr} (h : decodeWord w = .ok i) (s : State) : execWord w s = exec i s := by
  simp [execWord, h]

/-- R96: a word that selects no row changes nothing. -/
theorem execWord_error {w : Word} {r : Reject} (h : decodeWord w = .error r) (s : State) : execWord w s = .next s := by
  simp [execWord, h, execNop]

/-- What executing a word to a next state has done. -/
theorem execWord_next {w : Word} {s t : State} (h : execWord w s = .next t) :
    (∃ i, decodeWord w = .ok i ∧ exec i s = .next t) ∨ ((∃ r, decodeWord w = .error r) ∧ t = s) := by
  cases hd : decodeWord w with
  | ok i => exact .inl ⟨i, rfl, execWord_ok hd s ▸ h⟩
  | error r => rw [execWord_error hd] at h; cases h; exact .inr ⟨⟨r, rfl⟩, rfl⟩

/-- R125: a countdown is one less, and stays at zero. -/
theorem countdown_toNat (t : Byte) : (countdown t).toNat = t.toNat - 1 := by
  unfold countdown
  split
  · simp [*]
  · rename_i h
    have : t.toNat ≠ 0 := fun h0 => h (BitVec.eq_of_toNat_eq h0)
    have := t.isLt
    simp only [BitVec.toNat_sub, show (1 : Byte).toNat = 1 from rfl]
    omega

/-- R122 to R124, the scan in its two cases. -/
theorem scanKeys_cases (s : State) :
    ((∀ k : Fin 16, s.keys[k] = false) ∧ s.scanKeys = s) ∨
    (∃ k : Fin 16, s.keys[k] = true ∧ (∀ j : Fin 16, j < k → s.keys[j] = false) ∧
      s.scanKeys = { s.setV s.waitReg (BitVec.ofNat 8 k) with waiting := !s.cfg.keywaitExits }) := by
  unfold State.scanKeys
  split
  · exact .inl ⟨lowestKey_none ‹_›, rfl⟩
  · rename_i k h
    exact .inr ⟨k, (lowestKey_some h).1, (lowestKey_some h).2, rfl⟩

/-- A run of one step more is a step and then the run, on any machine. -/
theorem run_succ_iff (M : Host.Core) (n : Nat) (s u : M.State) :
    M.run (n + 1) s = .next u ↔ ∃ t, M.step s = .next t ∧ M.run n t = .next u := by
  rw [Host.Core.run.eq_2]
  cases M.step s <;> simp

/-- A run of one tick more is a tick and then the run. -/
theorem runsTo_succ {n : Nat} {s u : State} : RunsTo (n + 1) s u ↔ ∃ t, step s = .next t ∧ RunsTo n t u :=
  run_succ_iff Sys2Proof.core n s u

@[simp] theorem runsTo_zero {s t : State} : RunsTo 0 s t ↔ s = t :=
  ⟨fun h => by cases h; rfl, fun h => by cases h; rfl⟩

end Sys2Proof.Machine
end

