-- ==== Sys2Proof/Laws/Frames.lean ====
section
/-! SUPPORT. Said once, over all instructions and all states: what an instruction that answers a next state may have
changed (`exec_frame`), and what a tick that answers one has done (`step_next_cases`). A later proof about who writes an
element of the state reads it off these two. -/

namespace Sys2Proof.Machine

/-- The elements an instruction may write besides the general registers (spec/10_state.md R39). -/
def writesPart : Instr → List Part
  | .cls | .drw _ _ _ => [.display, .changed]
  | .ret => [.pc, .sp]
  | .call _ => [.pc, .stack, .sp]
  | .jp _ | .jpV0 _ | .seImm _ _ | .sneImm _ _ | .seReg _ _ | .sneReg _ _ | .skp _ | .sknp _ => [.pc]
  | .ldI _ | .addI _ | .ldF _ => [.i]
  | .ldB _ | .stRegs _ => [.mem]
  | .ldDtVx _ => [.dt]
  | .ldStVx _ => [.st]
  | .ldVxK _ => [.waiting, .waitReg]
  | .ldImm _ _ | .addImm _ _ | .ldReg _ _ | .orReg _ _ | .andReg _ _ | .xorReg _ _ | .addReg _ _ | .subReg _ _ | .shr _ _
  | .subnReg _ _ | .shl _ _ | .rnd _ _ | .ldVxDt _ | .ldRegs _ => []

/-- A frame from its three parts; the last is by the field lemmas. -/
theorem frame_of {parts : List Part} {regs : List Reg} {s t : State} (hp : ∀ p, p ∉ parts → Keeps s t p)
    (hv : ∀ y, y ∉ regs → t.getV y = s.getV y)
    (hm : t.keys = s.keys ∧ t.fault = s.fault ∧ t.cfg = s.cfg ∧ t.inputs = s.inputs ∧
      t.ticks = s.ticks ∧ t.rnd = s.rnd ∧ t.loaded = s.loaded := by
      simp) : Frame parts regs s t := ⟨hp, hv, hm⟩

/-- Only general registers among the named ones differ. -/
theorem frame_setV (s : State) {x : Reg} {regs : List Reg} (hx : x ∈ regs) (w : Byte) : Frame [] regs s (s.setV x w) :=
  frame_of (fun p _ => by cases p <;> simp [Keeps]) fun _ hy => getV_setV_other _ _ _ _ fun h => hy (h ▸ hx)

/-- Two frames in a row. -/
theorem Frame.trans {parts : List Part} {regs : List Reg} {s t u : State} (h : Frame parts regs s t)
    (g : Frame parts regs t u) : Frame parts regs s u := by
  refine ⟨fun p hp => ?_, fun y hy => (g.2.1 y hy).trans (h.2.1 y hy), ?_⟩
  · have h1 := h.1 p hp
    have h2 := g.1 p hp
    cases p <;> simp_all [Keeps]
  · obtain ⟨h1, h2, h3, h4, h5, h6, h7⟩ := h.2.2
    obtain ⟨g1, g2, g3, g4, g5, g6, g7⟩ := g.2.2
    exact ⟨g1.trans h1, g2.trans h2, g3.trans h3, g4.trans h4, g5.trans h5, g6.trans h6, g7.trans h7⟩

theorem frame_skipIf (s : State) (c : Bool) : Frame [.pc] [] s (s.skipIf c) :=
  frame_of (fun p hp => by cases p <;> simp_all [Keeps]) fun y _ => by simp

theorem frame_mem (s : State) (m : Memory) : Frame [.mem] [] s { s with mem := m } :=
  ⟨fun p hp => by cases p <;> simp_all [Keeps], fun _ _ => rfl, rfl, rfl, rfl, rfl, rfl, rfl, rfl⟩

theorem frame_withKey {s t : State} {b : Byte} {f : Bool → Bool} (h : s.withKey b (fun d => s.skipIf (f d)) = .next t) :
    Frame [.pc] [] s t := by
  by_cases hb : b.toNat < 16
  · rw [withKey_in s hb] at h
    cases h
    exact frame_skipIf s _
  · rw [withKey_out s (by omega)] at h
    cases h

theorem frame_storeBytes {s t : State} {a : Nat} {ws : List Byte} (h : s.storeBytes a ws = .next t) :
    Frame [.mem] [] s t := by
  by_cases hf : a + ws.length ≤ 4096
  · obtain ⟨m, hm, -, -⟩ := storeBytes_fits s a ws hf
    rw [hm] at h
    cases h
    exact frame_mem s m
  · by_cases hn : ws = []
    · subst hn
      cases h
      exact frame_mem s s.mem
    · rw [storeBytes_overruns s a ws hn (by omega)] at h
      cases h

/-- What an instruction may change: the elements `writesPart` names and the registers `writesV` names. -/
theorem exec_frame {i : Instr} {s t : State} (h : exec i s = .next t) : Frame (writesPart i) (writesV i) s t := by
  cases i with
  | ret =>
    change s.popReturn = .next t at h
    rcases popReturn_cases s with ⟨_, hs⟩ | ⟨_, hs⟩ | ⟨_, hs⟩ <;> rw [hs] at h <;> cases h
    refine ⟨fun p hp => ?_, fun _ _ => rfl, rfl, rfl, rfl, rfl, rfl, rfl, rfl⟩
    cases p <;> simp_all [Keeps, writesPart]
    intro; rfl
  | drw x y n =>
    change execDrw x y n s = .next t at h
    unfold execDrw at h
    split at h <;> cases h
    exact frame_of (fun p hp => by cases p <;> simp_all [Keeps, writesPart]) fun y hy => by
      rw [shown_getV, getV_setVF_other _ _ _ (by simpa [writesV] using hy)]
  | ldB x => exact frame_storeBytes h
  | stRegs x => exact frame_storeBytes h
  | ldRegs x =>
    change s.loadRegs (s.effAddr 0) (regsUpTo x) = .next t at h
    by_cases hf : s.effAddr 0 + (regsUpTo x).length ≤ 4096
    · obtain ⟨u, hu, hrest, -, hv⟩ := loadRegs_fits s _ _ (regsUpTo_nodup x) hf
      rw [hu] at h
      cases h
      refine ⟨fun p _ => ?_, hv, by rw [hrest]; simp⟩
      rw [hrest]
      cases p <;> simp [Keeps]
      intro; rfl
    · rw [loadRegs_overruns s _ _ (by simp [regsUpTo]) (by omega)] at h
      cases h
  | skp x => exact frame_withKey (f := fun d => d) h
  | sknp x => exact frame_withKey (f := fun d => !d) h
  | seImm x kk => cases h; exact frame_skipIf s _
  | sneImm x kk => cases h; exact frame_skipIf s _
  | seReg x y => cases h; exact frame_skipIf s _
  | sneReg x y => cases h; exact frame_skipIf s _
  | subReg x y => cases h; exact (frame_setV s (by simp [writesV]) _).trans (frame_setV _ (by simp [writesV]) _)
  | subnReg x y => cases h; exact (frame_setV s (by simp [writesV]) _).trans (frame_setV _ (by simp [writesV]) _)
  | shr x y => cases h; exact (frame_setV s (by simp [writesV]) _).trans (frame_setV _ (by simp [writesV]) _)
  | shl x y => cases h; exact (frame_setV s (by simp [writesV]) _).trans (frame_setV _ (by simp [writesV]) _)
  | addReg x y => cases h; exact (frame_setV s (by simp [writesV]) _).trans (frame_setV _ (by simp [writesV]) _)
  | ldImm x kk => cases h; exact frame_setV s (by simp [writesV]) _
  | addImm x kk => cases h; exact frame_setV s (by simp [writesV]) _
  | ldReg x y => cases h; exact frame_setV s (by simp [writesV]) _
  | orReg x y => cases h; exact frame_setV s (by simp [writesV]) _
  | andReg x y => cases h; exact frame_setV s (by simp [writesV]) _
  | xorReg x y => cases h; exact frame_setV s (by simp [writesV]) _
  | rnd x kk => cases h; exact frame_setV s (by simp [writesV]) _
  | ldVxDt x => cases h; exact frame_setV s (by simp [writesV]) _
  | ldVxK x =>
    cases h
    refine ⟨fun p hp => ?_, fun _ _ => rfl, rfl, rfl, rfl, rfl, rfl, rfl, rfl⟩
    cases p <;> simp_all [Keeps, writesPart]
    intro; rfl
  | ldDtVx x =>
    cases h
    refine ⟨fun p hp => ?_, fun _ _ => rfl, rfl, rfl, rfl, rfl, rfl, rfl, rfl⟩
    cases p <;> simp_all [Keeps, writesPart]
    intro; rfl
  | ldStVx x =>
    cases h
    refine ⟨fun p hp => ?_, fun _ _ => rfl, rfl, rfl, rfl, rfl, rfl, rfl, rfl⟩
    cases p <;> simp_all [Keeps, writesPart]
    intro; rfl
  | addI x =>
    cases h
    exact frame_of (fun p hp => by cases p <;> simp_all [Keeps, writesPart]) fun y hy => by
      rw [getV_setVF_other _ _ _ (by simpa [writesV] using hy), setI_getV]
  | cls => cases h; exact frame_of (fun p hp => by cases p <;> simp_all [Keeps, writesPart]) fun y _ => by simp
  | jp nnn => cases h; exact frame_of (fun p hp => by cases p <;> simp_all [Keeps, writesPart]) fun y _ => by simp
  | jpV0 nnn => cases h; exact frame_of (fun p hp => by cases p <;> simp_all [Keeps, writesPart]) fun y _ => by simp
  | call nnn => cases h; exact frame_of (fun p hp => by cases p <;> simp_all [Keeps, writesPart]) fun y _ => by simp
  | ldI nnn => cases h; exact frame_of (fun p hp => by cases p <;> simp_all [Keeps, writesPart]) fun y _ => by simp
  | ldF x => cases h; exact frame_of (fun p hp => by cases p <;> simp_all [Keeps, writesPart]) fun y _ => by simp

/-- R122: a key-wait scan may change V[WAIT_REG] and WAITING. -/
theorem scanKeys_frame (s : State) : Frame [.waiting] [s.waitReg] s s.scanKeys := by
  rcases scanKeys_cases s with ⟨-, h⟩ | ⟨k, -, -, h⟩ <;> rw [h]
  · exact frame_of (fun p _ => by cases p <;> simp [Keeps]) fun _ _ => rfl
  · refine frame_of (fun p hp => ?_) fun y hy => getV_setV_other _ _ _ _ fun h => hy (by simp [h])
    cases p <;> simp_all [Keeps]
    intro; rfl

/-- A tick executes at most one instruction. -/
theorem executes_unique {s : State} {i j : Instr} (hi : s.Executes i) (hj : s.Executes j) : i = j :=
  Except.ok.inj (hi.2.2.2.symm.trans hj.2.2.2)

/-- What a tick that answers a next state has done: scanned the keys, executed one instruction, or passed over an
unrecognised word. -/
theorem step_next_cases {s t : State} (h : step s = .next t) :
    (s.waiting = true ∧ t = s.latch.scanKeys) ∨
    (∃ i, s.Executes i ∧ exec i s.atExecute = .next t) ∨
    (s.waiting = false ∧ (∀ i, ¬ s.Executes i) ∧ t = s.atExecute) := by
  obtain ⟨hf, ⟨hw, ht⟩ | ⟨hw, hp, he⟩⟩ := step_next h
  · exact .inl ⟨hw, ht⟩
  · rcases execWord_next he with ⟨i, hd, hx⟩ | ⟨⟨r, hr⟩, rfl⟩
    · exact .inr (.inl ⟨i, ⟨hf, hw, by omega, hd⟩, hx⟩)
    · refine .inr (.inr ⟨hw, fun i hi => ?_, rfl⟩)
      have := hi.2.2.2
      rw [hr] at this
      cases this

end Sys2Proof.Machine
end

