-- ==== Sys2Proof/Laws/Load.lean ====
section
/-! SUPPORT. The load port, said once: when it takes an image and what it leaves (spec/70_reset_and_hazards.md R304). -/

namespace Sys2Proof.Machine

/-- A machine that has taken a program is not fresh (U17). -/
theorem isFresh_of_loaded {s : State} (h : s.loaded = true) : s.isFresh = false := by
  refine decide_eq_false fun hs => ?_
  have := congrArg State.loaded hs
  rw [h] at this
  cases this

/-- A load that answers a next state took an image without a flaw in a fresh machine, and left this. -/
theorem load_next_iff {image : List Byte} {s t : State} : State.load image s = .next t ↔
    imageFlaw image = none ∧ s.isFresh = true ∧
      t = { s with mem := Memory.writeBlock s.cfg 0x200 image s.mem, loaded := true } := by
  unfold State.load
  rcases hf : imageFlaw image with _ | _ | n
  · cases s.isFresh <;> simp [eq_comm]
  · simp
  · simp

end Sys2Proof.Machine
end

