-- ==== Sys2Proof/Laws/PerInstr.lean ====
section
/-! SUPPORT. A statement about the syntax of every instruction, one lemma per constructor: the word the encoder gives an
instruction selects that instruction's own row of the opcode table (spec/30_encoding.md R94), whatever its operands. -/

namespace Sys2Proof.Laws.EncodesItsRow

/-- The encoded word selects the instruction's row. -/
def Statement (i : Instr) : Prop := encode i &&& i.row.mask = i.row.value

/-! Each lemma: the mask keeps the format's fixed nibbles only. -/

theorem maskA (op : BitVec 4) (nnn : Imm12) : formatA op nnn &&& 0xF000 = op ++ (0 : BitVec 12) := by
  unfold formatA
  ext i hi
  simp only [BitVec.getElem_and, BitVec.getElem_append]
  interval_cases i <;> simp

theorem maskI (op : BitVec 4) (x : Reg) (kk : Byte) : formatI op x kk &&& 0xF000 = op ++ (0 : BitVec 12) := by
  unfold formatI
  ext i hi
  simp only [BitVec.getElem_and, BitVec.getElem_append]
  interval_cases i <;> simp

theorem maskR (op : BitVec 4) (x y : Reg) (m : BitVec 4) :
    formatR op x y m &&& 0xF00F = op ++ (0 : BitVec 8) ++ m := by
  unfold formatR
  ext i hi
  simp only [BitVec.getElem_and, BitVec.getElem_append]
  interval_cases i <;> simp

theorem maskD (op : BitVec 4) (x y : Reg) (m : BitVec 4) :
    formatR op x y m &&& 0xF000 = op ++ (0 : BitVec 12) := by
  unfold formatR
  ext i hi
  simp only [BitVec.getElem_and, BitVec.getElem_append]
  interval_cases i <;> simp

theorem maskX (op : BitVec 4) (x : Reg) (m : Byte) : formatX op x m &&& 0xF0FF = op ++ (0 : BitVec 4) ++ m := by
  unfold formatX
  ext i hi
  simp only [BitVec.getElem_and, BitVec.getElem_append]
  interval_cases i <;> simp

theorem cls : Statement (.cls) := rfl
theorem ret : Statement (.ret) := rfl
theorem jp (nnn : Imm12) : Statement (.jp nnn) := maskA ..
theorem call (nnn : Imm12) : Statement (.call nnn) := maskA ..
theorem seImm (x : Reg) (kk : Byte) : Statement (.seImm x kk) := maskI ..
theorem sneImm (x : Reg) (kk : Byte) : Statement (.sneImm x kk) := maskI ..
theorem seReg (x y : Reg) : Statement (.seReg x y) := maskR ..
theorem ldImm (x : Reg) (kk : Byte) : Statement (.ldImm x kk) := maskI ..
theorem addImm (x : Reg) (kk : Byte) : Statement (.addImm x kk) := maskI ..
theorem ldReg (x y : Reg) : Statement (.ldReg x y) := maskR ..
theorem orReg (x y : Reg) : Statement (.orReg x y) := maskR ..
theorem andReg (x y : Reg) : Statement (.andReg x y) := maskR ..
theorem xorReg (x y : Reg) : Statement (.xorReg x y) := maskR ..
theorem addReg (x y : Reg) : Statement (.addReg x y) := maskR ..
theorem subReg (x y : Reg) : Statement (.subReg x y) := maskR ..
theorem shr (x y : Reg) : Statement (.shr x y) := maskR ..
theorem subnReg (x y : Reg) : Statement (.subnReg x y) := maskR ..
theorem shl (x y : Reg) : Statement (.shl x y) := maskR ..
theorem sneReg (x y : Reg) : Statement (.sneReg x y) := maskR ..
theorem ldI (nnn : Imm12) : Statement (.ldI nnn) := maskA ..
theorem jpV0 (nnn : Imm12) : Statement (.jpV0 nnn) := maskA ..
theorem rnd (x : Reg) (kk : Byte) : Statement (.rnd x kk) := maskI ..
theorem drw (x y : Reg) (n : Count) : Statement (.drw x y n) := maskD ..
theorem skp (x : Reg) : Statement (.skp x) := maskX ..
theorem sknp (x : Reg) : Statement (.sknp x) := maskX ..
theorem ldVxDt (x : Reg) : Statement (.ldVxDt x) := maskX ..
theorem ldVxK (x : Reg) : Statement (.ldVxK x) := maskX ..
theorem ldDtVx (x : Reg) : Statement (.ldDtVx x) := maskX ..
theorem ldStVx (x : Reg) : Statement (.ldStVx x) := maskX ..
theorem addI (x : Reg) : Statement (.addI x) := maskX ..
theorem ldF (x : Reg) : Statement (.ldF x) := maskX ..
theorem ldB (x : Reg) : Statement (.ldB x) := maskX ..
theorem stRegs (x : Reg) : Statement (.stRegs x) := maskX ..
theorem ldRegs (x : Reg) : Statement (.ldRegs x) := maskX ..

end Sys2Proof.Laws.EncodesItsRow
end

