-- ==== Sys2Proof/Tests/Slice0.lean ====
section
/-! SUPPORT. The model's own tests. Every expected value is the spec's: the encodings of spec/30_encoding.md (R91, R94,
R101) written out by hand, and the vectors V-… of spec/95_test_vectors.md. Then, for every statement with hypotheses, a
witness that meets them (`test_witness_…`). -/

open Sys2Proof Sys2Proof.Machine

namespace Sys2Proof.Tests

/-! ### Helpers -/

/-- The inputs of one tick: the keys that are down, and the random byte. -/
def input (keys : List (Fin 16)) (rnd : Byte) : TickInput where
  keys  := keys.foldl (fun v (k : Fin 16) => v.set k true) (Vector.replicate 16 false)
  debug := false
  rnd   := rnd

/-- The vectors' start state: reset, PC, bytes placed at PC, some registers, and one tick's inputs with no key down. -/
def start (pc : Word) (bytes : List Byte) (regs : List (Reg × Byte)) : State :=
  { State.reset with
    pc     := pc
    mem    := Memory.writeBlock State.reset.cfg pc.toNat bytes []
    v      := regs.foldl (fun v (p : Reg × Byte) => v.set p.1 p.2) (Vector.replicate 16 0)
    inputs := [input [] 0] }

/-- Bytes placed at an address of a state. -/
def State.placing (s : State) (a : Nat) (bytes : List Byte) : State :=
  { s with mem := Memory.writeBlock s.cfg a bytes s.mem }

/-- A display with some rows given, bit c of a row being column c. -/
def rows (rs : List (Fin 32 × BitVec 64)) : Display :=
  rs.foldl (fun d (p : Fin 32 × BitVec 64) => d.set p.1 p.2) (Vector.replicate 32 0)

/-- The result is a next state with a property. -/
def answers (r : Result) (p : State → Bool) : Bool :=
  match r with
  | .next t => p t
  | _       => false

/-- The result is a given fault. -/
def stops (r : Result) (f : Fault) : Bool :=
  match r with
  | .fault g => decide (g = f)
  | _        => false

theorem of_answers {r : Result} {p : State → Bool} (h : answers r p = true) : ∃ t, r = .next t ∧ p t = true := by
  cases r with
  | next t => exact ⟨t, rfl, h⟩
  | fault f => cases h
  | refused f => cases h

/-! ### Well-formedness: each check refuses an ill-formed term and takes the last good one -/

theorem test_reg_check : Reg.check 15 = some 15 ∧ Reg.check 16 = none := by decide
theorem test_count_check : Count.check 15 = some 15 ∧ Count.check 16 = none := by decide
theorem test_byte_check : Byte.check 255 = some 255 ∧ Byte.check 256 = none := by decide
theorem test_imm12_check : Imm12.check 4095 = some 4095 ∧ Imm12.check 4096 = none := by decide
theorem test_image_empty : imageFlaw [] = some .empty := by decide
theorem test_image_too_long : imageFlaw (List.replicate 3585 0) = some (.tooLong 3585) := by
  simp only [imageFlaw, List.length_replicate]
  decide
theorem test_image_longest : imageFlaw (List.replicate 3584 0) = none := by
  simp only [imageFlaw, List.length_replicate]
  decide

/-! ### Decoding: a word of every row, written out from R94 -/

/-- 00E0 = 0000 0000 1110 0000, 00EE = 0000 0000 1110 1110 -/
theorem test_decode_z : decodeWord 0b0000000011100000 = .ok .cls ∧ decodeWord 0b0000000011101110 = .ok .ret := by decide
/-- 1nnn, 2nnn, Annn, Bnnn with nnn = 1010 1011 1100 -/
theorem test_decode_a : decodeWord 0b0001101010111100 = .ok (.jp 0xABC) ∧ decodeWord 0b0010101010111100 = .ok (.call 0xABC) ∧
    decodeWord 0b1010101010111100 = .ok (.ldI 0xABC) ∧ decodeWord 0b1011101010111100 = .ok (.jpV0 0xABC) := by decide
/-- 3xkk, 4xkk, 6xkk, 7xkk, Cxkk with x = 1101, kk = 0010 1001 -/
theorem test_decode_i : decodeWord 0b0011110100101001 = .ok (.seImm 13 0x29) ∧
    decodeWord 0b0100110100101001 = .ok (.sneImm 13 0x29) ∧ decodeWord 0b0110110100101001 = .ok (.ldImm 13 0x29) ∧
    decodeWord 0b0111110100101001 = .ok (.addImm 13 0x29) ∧ decodeWord 0b1100110100101001 = .ok (.rnd 13 0x29) := by decide
/-- 5xy0, 9xy0, Dxyn with x = 0011, y = 1100, n = 0101 -/
theorem test_decode_r : decodeWord 0b0101001111000000 = .ok (.seReg 3 12) ∧
    decodeWord 0b1001001111000000 = .ok (.sneReg 3 12) ∧ decodeWord 0b1101001111000101 = .ok (.drw 3 12 5) := by decide
/-- 8xy0 to 8xy4 with x = 0011, y = 1100 -/
theorem test_decode_logic : decodeWord 0b1000001111000000 = .ok (.ldReg 3 12) ∧
    decodeWord 0b1000001111000001 = .ok (.orReg 3 12) ∧ decodeWord 0b1000001111000010 = .ok (.andReg 3 12) ∧
    decodeWord 0b1000001111000011 = .ok (.xorReg 3 12) ∧ decodeWord 0b1000001111000100 = .ok (.addReg 3 12) := by decide
/-- 8xy5, 8xy6, 8xy7, 8xyE with x = 0011, y = 1100 -/
theorem test_decode_sub : decodeWord 0b1000001111000101 = .ok (.subReg 3 12) ∧
    decodeWord 0b1000001111000110 = .ok (.shr 3 12) ∧ decodeWord 0b1000001111000111 = .ok (.subnReg 3 12) ∧
    decodeWord 0b1000001111001110 = .ok (.shl 3 12) := by decide
/-- Ex9E = 1110 x 1001 1110, ExA1 = 1110 x 1010 0001, with x = 1011 -/
theorem test_decode_e : decodeWord 0b1110101110011110 = .ok (.skp 11) ∧ decodeWord 0b1110101110100001 = .ok (.sknp 11) := by
  decide
/-- Fx07, Fx0A, Fx15, Fx18 with x = 1011 -/
theorem test_decode_timers : decodeWord 0b1111101100000111 = .ok (.ldVxDt 11) ∧
    decodeWord 0b1111101100001010 = .ok (.ldVxK 11) ∧ decodeWord 0b1111101100010101 = .ok (.ldDtVx 11) ∧
    decodeWord 0b1111101100011000 = .ok (.ldStVx 11) := by decide
/-- Fx1E, Fx29, Fx33, Fx55, Fx65 with x = 1011 -/
theorem test_decode_index : decodeWord 0b1111101100011110 = .ok (.addI 11) ∧ decodeWord 0b1111101100101001 = .ok (.ldF 11) ∧
    decodeWord 0b1111101100110011 = .ok (.ldB 11) ∧ decodeWord 0b1111101101010101 = .ok (.stRegs 11) ∧
    decodeWord 0b1111101101100101 = .ok (.ldRegs 11) := by decide
/-- R97: words next to a pattern that select no row -/
theorem test_decode_unrecognised : decodeWord 0x0000 = .error (.unrecognised 0x0000) ∧
    decodeWord 0x5341 = .error (.unrecognised 0x5341) ∧ decodeWord 0x8128 = .error (.unrecognised 0x8128) ∧
    decodeWord 0x01E0 = .error (.unrecognised 0x01E0) ∧ decodeWord 0xF266 = .error (.unrecognised 0xF266) := by decide
theorem test_decode_truncated : decodeBytes [0x60] = .error .truncated ∧ decodeBytes [] = .error .truncated := by decide
/-- R101: `12 00` at increasing addresses; bits 15..8 of the table's word are the byte at the lower address -/
theorem test_decode_table_word : decodeTableWord 16 0x1200 = some (.jp 0x200) ∧ decodeTableWord 16 0x5341 = none := by decide

/-! ### Control flow, one tick each (95_test_vectors.md 2.1) -/

/-- V-T2 -/
theorem test_ret : answers (step { start 0x300 [0x00, 0xEE] [] with sp := 16, stack := (Vector.replicate 16 0).set 15 0x456 })
    (fun t => t.pc = 0x456 ∧ t.sp = 15) := by decide
/-- V-T3, V-T4 -/
theorem test_ret_faults : stops (step (start 0x300 [0x00, 0xEE] [])) (.stackUnderflow 0x300) ∧
    stops (step { start 0x300 [0x00, 0xEE] [] with sp := 17 }) (.stackSlotOutOfRange 0x300 16) := by decide
/-- V-T6 -/
theorem test_jp : answers (step (start 0x200 [0x13, 0x01] [])) (fun t => t.pc = 0x301) := by decide
/-- V-T9 -/
theorem test_call : answers (step { start 0x2F0 [0x24, 0x00] [] with sp := 15 })
    (fun t => t.pc = 0x400 ∧ t.sp = 16 ∧ t.stack[15] = 0x2F2) := by decide
/-- V-T10 -/
theorem test_call_full :
    answers (step { start 0x2F0 [0x24, 0x00] [] with sp := 16, stack := (Vector.replicate 16 0).set 15 0x111 })
      (fun t => t.pc = 0x400 ∧ t.sp = 17 ∧ t.stack[15] = 0x111) := by decide
/-- V-T11, V-T12 -/
theorem test_seImm : answers (step (start 0x208 [0x31, 0x00] [])) (fun t => t.pc = 0x20C) ∧
    answers (step (start 0x208 [0x31, 0x00] [(1, 1)])) (fun t => t.pc = 0x20A) := by decide
/-- V-T13, V-T14 -/
theorem test_sneImm : answers (step (start 0x300 [0x42, 0x08] [(2, 7)])) (fun t => t.pc = 0x304) ∧
    answers (step (start 0x300 [0x42, 0x07] [(2, 7)])) (fun t => t.pc = 0x302) := by decide
/-- V-T15, V-T16 -/
theorem test_seReg : answers (step (start 0x220 [0x53, 0x40] [(3, 0x55), (4, 0x55)])) (fun t => t.pc = 0x224) ∧
    answers (step (start 0x220 [0x53, 0x40] [(3, 0x55), (4, 0x56)])) (fun t => t.pc = 0x222) := by decide
/-- V-T17, V-T18 -/
theorem test_sneReg : answers (step (start 0x220 [0x93, 0x40] [(3, 1), (4, 2)])) (fun t => t.pc = 0x224) ∧
    answers (step (start 0x220 [0x93, 0x30] [(3, 1)])) (fun t => t.pc = 0x222) := by decide
/-- V-T20: the offset register is V[0], not V[x]; the sum is not masked -/
theorem test_jpV0 : answers (step (start 0x200 [0xBF, 0xFF] [(0, 0xFF), (15, 1)])) (fun t => t.pc = 0x10FE) := by decide
/-- V-T22 -/
theorem test_unrecognised : answers (step { start 0x400 [0x00, 0x00] [] with dt := 3, st := 1 })
    (fun t => t.pc = 0x402 ∧ t.dt = 2 ∧ t.st = 0 ∧ t.outputs.beep = false) := by decide
/-- V-T24, V-T25 -/
theorem test_fetch_bounds : answers (step (start 0xFFE [0x6A, 0xAA] [])) (fun t => t.pc = 0x1000 ∧ t.getV 10 = 0xAA) ∧
    stops (step (start 0xFFF [] [])) (.fetchOutOfRange 0xFFF) := by decide

/-! ### Loads and arithmetic (95_test_vectors.md 2.2) -/

/-- V-A1 -/
theorem test_ldImm : answers (step (start 0x200 [0x60, 0x12] [])) (fun t => t.getV 0 = 0x12) := by decide
/-- V-A2 -/
theorem test_addImm : answers (step (start 0x200 [0x71, 0xFF] [(1, 5), (15, 0x77)]))
    (fun t => t.getV 1 = 4 ∧ t.getV 15 = 0x77) := by decide
/-- V-A4 -/
theorem test_ldReg : answers (step (start 0x200 [0x81, 0x20] [(2, 0xAB)])) (fun t => t.getV 1 = 0xAB) := by decide
/-- V-A5 -/
theorem test_orReg : answers (step (start 0x200 [0x81, 0x21] [(1, 0xF0), (2, 0x0F), (15, 0x77)]))
    (fun t => t.getV 1 = 0xFF ∧ t.getV 15 = 0x77) := by decide
/-- V-A6 -/
theorem test_andReg : answers (step (start 0x200 [0x81, 0x22] [(1, 0xF0), (2, 0x3C), (15, 0x77)]))
    (fun t => t.getV 1 = 0x30 ∧ t.getV 15 = 0x77) := by decide
/-- V-A7 -/
theorem test_xorReg : answers (step (start 0x200 [0x81, 0x23] [(1, 0xF0), (2, 0x3C), (15, 0x77)]))
    (fun t => t.getV 1 = 0xCC ∧ t.getV 15 = 0x77) := by decide
/-- V-A13, V-A14 -/
theorem test_addReg : answers (step (start 0x200 [0x81, 0x24] [(1, 0xFF), (15, 1)])) (fun t => t.getV 1 = 0xFF ∧ t.getV 15 = 0) ∧
    answers (step (start 0x200 [0x81, 0x24] [(1, 0xFF), (2, 1)])) (fun t => t.getV 1 = 0 ∧ t.getV 15 = 1) := by decide
/-- V-A25 -/
theorem test_addReg_flag : answers (step (start 0x200 [0x8F, 0x14] [(1, 0xF0), (15, 0x20)]))
    (fun t => t.getV 1 = 0xF0 ∧ t.getV 15 = 1) := by decide
/-- V-A11, V-A12 -/
theorem test_subReg : answers (step (start 0x200 [0x81, 0x25] [(1, 7), (2, 7), (15, 1)])) (fun t => t.getV 1 = 0 ∧ t.getV 15 = 0) ∧
    answers (step (start 0x200 [0x81, 0x25] [(1, 5), (2, 10), (15, 1)])) (fun t => t.getV 1 = 0xFB ∧ t.getV 15 = 0) := by
  decide
/-- V-A28, V-A29 -/
theorem test_subReg_flag : answers (step (start 0x200 [0x8F, 0x15] [(1, 3), (15, 10)])) (fun t => t.getV 15 = 0xFE) ∧
    answers (step (start 0x200 [0x81, 0xF5] [(1, 10), (15, 3)])) (fun t => t.getV 1 = 9 ∧ t.getV 15 = 1) := by decide
/-- V-A16 -/
theorem test_shr : answers (step (start 0x200 [0x81, 0x26] [(1, 4), (2, 0xFF), (15, 1)]))
    (fun t => t.getV 1 = 2 ∧ t.getV 2 = 0xFF ∧ t.getV 15 = 0) := by decide
/-- V-A31 -/
theorem test_shr_flag : answers (step (start 0x200 [0x8F, 0x06] [(15, 0xFF)])) (fun t => t.getV 15 = 0) := by decide
/-- V-A17, V-A18 -/
theorem test_subnReg : answers (step (start 0x200 [0x81, 0x27] [(1, 5), (2, 10)])) (fun t => t.getV 1 = 5 ∧ t.getV 15 = 1) ∧
    answers (step (start 0x200 [0x81, 0x27] [(1, 9), (2, 9), (15, 1)])) (fun t => t.getV 1 = 0 ∧ t.getV 15 = 0) := by decide
/-- V-A32, V-A33 -/
theorem test_subnReg_flag : answers (step (start 0x200 [0x8F, 0x17] [(1, 3), (15, 10)])) (fun t => t.getV 15 = 3) ∧
    answers (step (start 0x200 [0x81, 0xF7] [(1, 3), (15, 10)])) (fun t => t.getV 1 = 0xFE ∧ t.getV 15 = 1) := by decide
/-- V-A20 -/
theorem test_shl : answers (step (start 0x200 [0x81, 0x0E] [(1, 0x81)])) (fun t => t.getV 1 = 2 ∧ t.getV 15 = 1) := by decide
/-- V-A34, V-A35 -/
theorem test_shl_flag : answers (step (start 0x200 [0x8F, 0x0E] [(15, 0x80)])) (fun t => t.getV 15 = 2) ∧
    answers (step (start 0x200 [0x8F, 0x0E] [(15, 0x40)])) (fun t => t.getV 15 = 0) := by decide
/-- V-A22 -/
theorem test_rnd : answers (step { start 0x200 [0xC3, 0x0F] [] with inputs := [input [] 0xA7] }) (fun t => t.getV 3 = 7) := by
  decide

/-! ### Index register and memory (95_test_vectors.md 2.3) -/

/-- V-M1 -/
theorem test_ldI : answers (step { start 0x200 [0xA3, 0x00] [] with i := 0xFFFF }) (fun t => t.i = 0x300) := by decide
/-- V-M2, V-M3 -/
theorem test_addI : answers (step { start 0x200 [0xF2, 0x1E] [(2, 2)] with i := 0xEFF }) (fun t => t.i = 0xF01 ∧ t.getV 15 = 1) ∧
    answers (step { start 0x200 [0xF2, 0x1E] [(2, 1), (15, 1)] with i := 0xEFF }) (fun t => t.i = 0xF00 ∧ t.getV 15 = 0) := by
  decide
/-- V-M5, V-M6 -/
theorem test_addI_corners :
    answers (step { start 0x200 [0xF2, 0x1E] [(2, 1), (15, 1)] with i := 0xFFFF }) (fun t => t.i = 0 ∧ t.getV 15 = 0) ∧
    answers (step { start 0x200 [0xFF, 0x1E] [(15, 1)] with i := 0xF00 }) (fun t => t.i = 0xF01 ∧ t.getV 15 = 1) := by decide
/-- V-M8, V-M10 -/
theorem test_ldF : answers (step (start 0x200 [0xF0, 0x29] [(0, 3)])) (fun t => t.i = 0xF) ∧
    answers (step (start 0x200 [0xF0, 0x29] [(0, 0x1A)])) (fun t => t.i = 0x82) := by decide
/-- V-M11, V-M13 -/
theorem test_ldB : answers (step { start 0x200 [0xF0, 0x33] [(0, 254)] with i := 0x300 })
      (fun t => t.peek 0x300 = 2 ∧ t.peek 0x301 = 5 ∧ t.peek 0x302 = 4 ∧ t.i = 0x300) ∧
    answers (step { start 0x200 [0xF0, 0x33] [(0, 199)] with i := 0xFFD })
      (fun t => t.peek 0xFFD = 1 ∧ t.peek 0xFFE = 9 ∧ t.peek 0xFFF = 9) := by decide
/-- V-M14 -/
theorem test_ldB_fault : stops (step { start 0x200 [0xF0, 0x33] [(0, 199)] with i := 0xFFE })
    (.memWriteOutOfRange 0x200 0x1000) := by decide
/-- V-M15 -/
theorem test_stRegs : answers (step (State.placing { start 0x200 [0xF2, 0x55] [(0, 0x11), (1, 0x22), (2, 0x33), (3, 0x44)] with
      i := 0x400 } 0x403 [0xEE]))
    (fun t => t.peek 0x400 = 0x11 ∧ t.peek 0x401 = 0x22 ∧ t.peek 0x402 = 0x33 ∧ t.peek 0x403 = 0xEE ∧ t.i = 0x400) := by
  decide
/-- V-M17 -/
theorem test_stRegs_fault : stops (step { start 0x200 [0xFF, 0x55] [] with i := 0xFF1 })
    (.memWriteOutOfRange 0x200 0x1000) := by decide
/-- V-M18 -/
theorem test_ldRegs : answers (step (State.placing { start 0x200 [0xF2, 0x65] [(3, 0x99)] with i := 0x300 } 0x300 [2, 5, 4, 7]))
    (fun t => t.getV 0 = 2 ∧ t.getV 1 = 5 ∧ t.getV 2 = 4 ∧ t.getV 3 = 0x99 ∧ t.i = 0x300) := by decide
/-- V-M20 -/
theorem test_ldRegs_fault : stops (step { start 0x200 [0xF1, 0x65] [] with i := 0xFFF })
    (.memReadOutOfRange 0x200 0x1000) := by decide

/-! ### Display (95_test_vectors.md 2.4) -/

/-- V-D1 -/
theorem test_cls : answers (step { start 0x200 [0x00, 0xE0] [(15, 7)] with display := rows [(0, 1), (31, 0x8000000000000000)] })
    (fun t => t.display = rows [] ∧ t.getV 15 = 7 ∧ t.changed) := by decide
/-- V-D2: columns 62, 63, 0 to 5 of row 31, columns 62 and 5 of row 0 -/
theorem test_drw : answers (step (State.placing { start 0x200 [0xD1, 0x22] [(1, 62), (2, 31), (15, 1)] with i := 0x300 }
      0x300 [0xFF, 0x81]))
    (fun t => t.display = rows [(31, 0xC00000000000003F), (0, 0x4000000000000020)] ∧ t.getV 15 = 0 ∧ t.changed) := by decide
/-- V-D3: cells (0,1) and (0,5) lit before, (0,0) and (0,5) after -/
theorem test_drw_collision :
    answers (step (State.placing { start 0x200 [0xD1, 0x21] [] with i := 0x300, display := rows [(0, 0x22)] } 0x300 [0xC0]))
      (fun t => t.display = rows [(0, 0x21)] ∧ t.getV 15 = 1) := by decide
/-- V-D7, and V-D4: no row, no read, no fault -/
theorem test_drw_bounds : stops (step { start 0x200 [0xD1, 0x22] [] with i := 0xFFF }) (.memReadOutOfRange 0x200 0x1000) ∧
    answers (step { start 0x200 [0xD1, 0x20] [(15, 1)] with i := 0xFFFF, display := rows [(3, 8)] })
      (fun t => t.display = rows [(3, 8)] ∧ t.getV 15 = 0 ∧ t.changed) := by decide
/-- V-D8 -/
theorem test_drw_flag_as_column :
    answers (step (State.placing { start 0x200 [0xDF, 0x11] [(15, 10), (1, 2)] with i := 0x300 } 0x300 [0x80]))
      (fun t => t.display = rows [(2, 0x400)] ∧ t.getV 15 = 0) := by decide

/-! ### Keypad and timers (95_test_vectors.md 2.5) -/

/-- V-K1, V-K2 -/
theorem test_skp : answers (step { start 0x250 [0xE4, 0x9E] [(4, 10)] with inputs := [input [10] 0] }) (fun t => t.pc = 0x254) ∧
    answers (step { start 0x250 [0xE4, 0x9E] [(4, 10)] with inputs := [input [11] 0] }) (fun t => t.pc = 0x252) := by decide
/-- V-K5 -/
theorem test_skp_fault : stops (step (start 0x250 [0xE4, 0x9E] [(4, 16)])) (.keyIndexOutOfRange 0x250 16) := by decide
/-- V-K3, V-K4 -/
theorem test_sknp : answers (step { start 0x250 [0xE4, 0xA1] [(4, 10)] with inputs := [input [10] 0] }) (fun t => t.pc = 0x252) ∧
    answers (step (start 0x250 [0xE4, 0xA1] [(4, 10)])) (fun t => t.pc = 0x254) := by decide
/-- V-K6 -/
theorem test_sknp_fault : stops (step (start 0x250 [0xE4, 0xA1] [(4, 0xFF)])) (.keyIndexOutOfRange 0x250 0xFF) := by decide
/-- V-K7, V-K8 -/
theorem test_ldVxDt : answers (step { start 0x200 [0xF3, 0x07] [] with dt := 5 }) (fun t => t.dt = 4 ∧ t.getV 3 = 4) ∧
    answers (step (start 0x200 [0xF3, 0x07] [(3, 9)])) (fun t => t.dt = 0 ∧ t.getV 3 = 0) := by decide
/-- V-K9 -/
theorem test_ldVxK : answers (step { start 0x204 [0xF3, 0x0A] [] with inputs := [input [2, 7] 0] })
    (fun t => t.waiting ∧ t.waitReg = 3 ∧ t.pc = 0x206 ∧ t.getV 3 = 0) := by decide
/-- V-K10 -/
theorem test_ldDtVx : answers (step { start 0x200 [0xF2, 0x15] [(2, 0x3C)] with dt := 9 }) (fun t => t.dt = 0x3C) := by decide
/-- V-K11, V-K12 -/
theorem test_ldStVx : answers (step (start 0x200 [0xFA, 0x18] [(10, 5)])) (fun t => t.st = 5 ∧ t.outputs.beep) ∧
    answers (step { start 0x200 [0xFA, 0x18] [] with st := 9 }) (fun t => t.st = 0 ∧ t.outputs.beep = false) := by decide

/-! ### Ticks (95_test_vectors.md 2.6) -/

/-- V-X1 and its successors: WAITING, WAIT_REG = 3, PC = 0x206, DT = 7, ST = 4, and some keys down. -/
def waitingAt (exits : Bool) (keys : List (Fin 16)) : State :=
  { start 0x206 [] [] with
    waiting := true
    waitReg := 3
    dt      := 7
    st      := 4
    changed := true
    cfg     := { State.reset.cfg with keywaitExits := exits }
    inputs  := [input keys 0] }

/-- V-X1, V-X2 -/
theorem test_wait : answers (step (waitingAt false []))
      (fun t => t.waiting ∧ t.pc = 0x206 ∧ t.dt = 7 ∧ t.st = 4 ∧ t.getV 3 = 0 ∧ t.changed = false) ∧
    answers (step (waitingAt false [2, 7])) (fun t => t.waiting ∧ t.pc = 0x206 ∧ t.dt = 7 ∧ t.st = 4 ∧ t.getV 3 = 2) := by
  decide
/-- V-X3 -/
theorem test_wait_exits : answers (step (waitingAt true [2, 7]))
    (fun t => t.waiting = false ∧ t.pc = 0x206 ∧ t.dt = 7 ∧ t.st = 4 ∧ t.getV 3 = 2) := by decide
/-- V-X5 -/
theorem test_changed_cleared : answers (step { start 0x200 [0x60, 0x00] [] with changed := true }) (fun t => t.changed = false) := by
  decide
/-- V-X7 -/
theorem test_latched : stops (step ((start 0x200 [0x60, 0x00] []).latchFault (.stackUnderflow 0x1FE))) (.stackUnderflow 0x1FE) := by
  decide
/-- A word placed in the reset state runs as its first instruction -/
theorem test_withFetchWord : answers (step (State.reset.withFetchWord 16 0x6012)) (fun t => t.getV 0 = 0x12 ∧ t.pc = 0x202) := by
  decide
/-- P1, its image loaded into the reset state -/
theorem test_load : answers (State.load [0x00, 0xE0, 0x60, 0x12, 0x12, 0x00] State.reset)
    (fun t => t.peek 0x200 = 0 ∧ t.peek 0x201 = 0xE0 ∧ t.peek 0x205 = 0 ∧ t.peek 0x204 = 0x12) := by decide

/-! ### Witnesses: a state and operands that meet the hypotheses of each statement, clause by clause -/

/-- A state about to execute an instruction: a concrete word at a concrete PC. -/
theorem test_witness_StepRunsTheDecodedInstruction : (start 0xFFE [0x6A, 0xAA] []).Executes (.ldImm 10 0xAA) ∧
    (start 0x0 [0x00, 0xE0] []).Executes .cls := ⟨⟨rfl, rfl, by decide, rfl⟩, rfl, rfl, by decide, rfl⟩

theorem test_witness_EncodeOfDecodeIsTheWord : decodeWord 0x81F6 = .ok (.shr 1 15) := by decide

theorem test_witness_DecoderAgreesWithTheOpcodeTable :
    (Instr.shl 3 12).row ∈ opcodeTable ∧ (Instr.shl 3 12).row.selects 0x83CE = true ∧
    decodeWord 0x83CE = .ok (.shl 3 12) ∧ ∀ r ∈ opcodeTable, r.selects 0x83CF = false := by decide

theorem test_witness_UnrecognisedWordOnlyAdvances :
    let s := { start 0xFFE [0xFF, 0xFF] [] with dt := 1 }
    s.fault = none ∧ s.waiting = false ∧ s.pc.toNat ≤ 0xFFE ∧ ∀ r ∈ opcodeTable, r.selects s.wordAtPc = false := by decide

theorem test_witness_FetchBeyondMemoryFaults :
    (start 0xFFF [] []).fault = none ∧ (start 0xFFF [] []).waiting = false ∧ 0xFFF ≤ (start 0xFFF [] []).pc.toNat := by decide

/-- Each clause: a tick that executes no display instruction, a waiting tick with a key down, the two skips at key 15. -/
theorem test_witness_EveryTickLatchesKeysBeforeTheyAreRead :
    (∃ t, step (waitingAt false []) = .next t ∧
      ∀ i, (waitingAt false []).Executes i → i ≠ .cls ∧ ∀ x y n, i ≠ .drw x y n) ∧
    (∃ t, step (waitingAt false [15]) = .next t ∧ (waitingAt false [15]).waiting = true ∧
      (waitingAt false [15]).input.keys[(15 : Fin 16)] = true ∧
      ∀ j : Fin 16, j < 15 → (waitingAt false [15]).input.keys[j] = false) ∧
    (∃ t, step (start 0x250 [0xE4, 0x9E] [(4, 15)]) = .next t ∧ (start 0x250 [0xE4, 0x9E] [(4, 15)]).Executes (.skp 4)) ∧
    (∃ t, step (start 0x250 [0xE4, 0xA1] [(4, 15)]) = .next t ∧ (start 0x250 [0xE4, 0xA1] [(4, 15)]).Executes (.sknp 4)) ∧
    ((start 0x250 [0xE4, 0x9E] [(4, 15)]).getV 4).toNat < 16 :=
  ⟨⟨_, rfl, fun _ h => Bool.noConfusion (h.2.1 : true = false)⟩, ⟨_, rfl, rfl, by decide, by decide⟩,
    ⟨_, rfl, rfl, rfl, by decide, rfl⟩, ⟨_, rfl, rfl, rfl, by decide, rfl⟩, by decide⟩

theorem test_witness_WaitingTickWithoutAKeyChangesNothing :
    let s := waitingAt false []
    s.fault = none ∧ s.waiting = true ∧ ∀ k : Fin 16, s.input.keys[k] = false := by decide

/-- Each clause: the highest key alone, the lowest among several, no key. -/
theorem test_witness_WaitingTickLatchesTheLowestKey :
    (let s := waitingAt false [15]
     s.fault = none ∧ s.waiting = true ∧ s.input.keys[(15 : Fin 16)] = true ∧ ∀ j : Fin 16, j < 15 → s.input.keys[j] = false) ∧
    (let s := waitingAt true [0, 7]
     s.fault = none ∧ s.waiting = true ∧ s.input.keys[(0 : Fin 16)] = true ∧ ∀ j : Fin 16, j < 0 → s.input.keys[j] = false) ∧
    (let s := waitingAt true []
     s.fault = none ∧ s.waiting = true ∧ ∀ k : Fin 16, s.input.keys[k] = false) := by
  decide

/-- Each clause: the wait begins; it ends with the parameter true and a key down. -/
theorem test_witness_WaitBeginsWithFx0AAndEndsByTheParameter :
    (∃ t, step (start 0x204 [0xF3, 0x0A] []) = .next t ∧ (start 0x204 [0xF3, 0x0A] []).waiting = false ∧ t.waiting = true ∧
      (start 0x204 [0xF3, 0x0A] []).Executes (.ldVxK 3)) ∧
    (∃ t, step (waitingAt true [7]) = .next t ∧ (waitingAt true [7]).waiting = true ∧ t.waiting = false) ∧
    (∃ t, step (waitingAt false [7]) = .next t ∧ t.waiting = true) :=
  ⟨⟨_, rfl, rfl, rfl, rfl, rfl, by decide, rfl⟩, ⟨_, rfl, rfl, by decide⟩, ⟨_, rfl, by decide⟩⟩

theorem test_witness_WaitNeverEndsOnThisHardware :
    (waitingAt false [2, 7]).Blocked ∧ (waitingAt false [2, 7]).cfg.keywaitExits = false := ⟨⟨rfl, rfl⟩, rfl⟩

/-- Each clause: a waiting tick, a tick that moves no timer, and the three timer moves. -/
theorem test_witness_TimersCountDownOncePerExecutedTick :
    (∃ t, step (waitingAt false []) = .next t ∧ (waitingAt false []).waiting = true) ∧
    (∃ t, step (start 0x200 [0x00, 0xE0] []) = .next t ∧ (start 0x200 [0x00, 0xE0] []).Executes .cls) ∧
    (∃ t, step (start 0x200 [0xF2, 0x15] []) = .next t ∧ (start 0x200 [0xF2, 0x15] []).Executes (.ldDtVx 2)) ∧
    (∃ t, step (start 0x200 [0xFA, 0x18] []) = .next t ∧ (start 0x200 [0xFA, 0x18] []).Executes (.ldStVx 10)) ∧
    (∃ t, step (start 0x200 [0xF3, 0x07] []) = .next t ∧ (start 0x200 [0xF3, 0x07] []).Executes (.ldVxDt 3)) :=
  ⟨⟨_, rfl, rfl⟩, ⟨_, rfl, rfl, rfl, by decide, rfl⟩, ⟨_, rfl, rfl, rfl, by decide, rfl⟩,
    ⟨_, rfl, rfl, rfl, by decide, rfl⟩, ⟨_, rfl, rfl, rfl, by decide, rfl⟩⟩

/-- A state that executes 00E0 moves no timer by an instruction. -/
theorem cls_moves_no_timer {s : State} (h : s.Executes .cls) :
    s.waiting = false ∧ (∀ x, ¬ s.Executes (.ldDtVx x)) ∧ ∀ x, ¬ s.Executes (.ldStVx x) := by
  refine ⟨h.2.1, fun x hx => ?_, fun x hx => ?_⟩ <;> (have := hx.2.2.2; rw [h.2.2.2] at this; cases this)

/-- The state after one tick, for a state whose tick completes. -/
def after (s : State) : State :=
  match step s with
  | .next t => t
  | _       => s

/-- About to execute 00E0 with both timers at 1. -/
def clearing : State := { start 0x200 [0x00, 0xE0] [] with dt := 1, st := 1 }

/-- A run of one tick from there moves no timer by an instruction. -/
theorem clearing_runs : RunsTo 1 clearing (after clearing) ∧ ∀ k u, k < 1 → RunsTo k clearing u →
    u.waiting = false ∧ (∀ x, ¬ u.Executes (.ldDtVx x)) ∧ ∀ x, ¬ u.Executes (.ldStVx x) := by
  refine ⟨runsTo_succ.mpr ⟨after clearing, rfl, runsTo_zero.mpr rfl⟩, fun k u hk hu => ?_⟩
  obtain rfl : k = 0 := by omega
  obtain rfl := runsTo_zero.mp hu
  exact cls_moves_no_timer ⟨rfl, rfl, by decide, rfl⟩

theorem test_witness_DelayTimerFallsByOnePerTickOfARun :
    ∃ (n : Nat) (s t : State), RunsTo n s t ∧
      ∀ k u, k < n → RunsTo k s u → u.waiting = false ∧ ∀ x, ¬ u.Executes (.ldDtVx x) := by
  obtain ⟨h, hk⟩ := clearing_runs
  exact ⟨1, _, _, h, fun k u hlt hu => ⟨(hk k u hlt hu).1, (hk k u hlt hu).2.1⟩⟩

theorem test_witness_BeepSoundsWhileTheSoundTimerLasts :
    ∃ (n : Nat) (s t : State), RunsTo n s t ∧
      ∀ k u, k < n → RunsTo k s u → u.waiting = false ∧ ∀ x, ¬ u.Executes (.ldStVx x) := by
  obtain ⟨h, hk⟩ := clearing_runs
  exact ⟨1, _, _, h, fun k u hlt hu => ⟨(hk k u hlt hu).1, (hk k u hlt hu).2.2⟩⟩

/-- The inputs differ in the debug flag. -/
theorem test_witness_DebugInputIsNeverObserved :
    let s := start 0x200 [0x00, 0xE0] []
    let ins := [{ input [] 0 with debug := true }]
    ins ≠ s.inputs ∧ ins.map (fun a => (a.keys, a.rnd)) = s.inputs.map (fun a => (a.keys, a.rnd)) ∧ ∃ t, RunsTo 1 s t :=
  ⟨by decide, by decide, _, rfl⟩

theorem test_witness_TickCompletesExactlyWhenFaultFree :
    (start 0x200 [0xF2, 0x55] []).TickSafe ∧ ¬ (start 0x200 [0x00, 0xEE] []).TickSafe := by
  refine ⟨⟨rfl, fun _ => ⟨by decide, fun i hi => ?_⟩⟩, fun h => absurd ((h.2 rfl).2 .ret rfl).1 (by decide)⟩
  have : i = .stRegs 2 := by cases hi; rfl
  subst this
  show _ ≤ _
  decide

theorem test_witness_StepKeepsMemoryCanonical :
    let s := { start 0x200 [0xF0, 0x33] [(0, 254)] with i := 0xFFD }
    s.MemCanonical ∧ ∃ t, step s = .next t := ⟨rfl, _, rfl⟩

theorem test_witness_StepKeepsPcReachable :
    let s := start 0xFFE [0xBF, 0xFF] [(0, 0xFF)]
    s.PcBounded ∧ ∃ t, step s = .next t ∧ t.pc = 0x10FE := ⟨⟨by decide, by decide⟩, _, rfl, by decide⟩

theorem test_witness_TickConsumesOneInputAndKeepsParameters : ∃ t, step (start 0x200 [0x00, 0xE0] []) = .next t := ⟨_, rfl⟩

/-- Each clause: Fx33 changes a byte, 00E0 changes the display. -/
theorem test_witness_MemoryAndDisplayHaveTheirWriters :
    (∃ t, step { start 0x200 [0xF0, 0x33] [(0, 254)] with i := 0x300 } = .next t ∧
      t.peek 0x300 ≠ ({ start 0x200 [0xF0, 0x33] [(0, 254)] with i := 0x300 } : State).peek 0x300) ∧
    (∃ t, step { start 0x200 [0x00, 0xE0] [] with display := rows [(0, 1)] } = .next t ∧ t.display ≠ rows [(0, 1)]) :=
  ⟨⟨_, rfl, by decide⟩, _, rfl, by decide⟩

/-- Each clause: each of the four instructions answers a next state; Annn changes I. -/
theorem test_witness_MemoryInstructionsKeepTheIndex :
    (∀ i ∈ [Instr.ldB 1, .stRegs 1, .ldRegs 1, .drw 1 1 1], ∃ t, exec i (start 0x200 [] []) = .next t) ∧
    (∃ t, step (start 0x200 [0xA3, 0x00] []) = .next t ∧ t.i ≠ (start 0x200 [0xA3, 0x00] []).i) := by
  refine ⟨fun i hi => ?_, _, rfl, by decide⟩
  simp only [List.mem_cons, List.not_mem_nil, or_false] at hi
  rcases hi with rfl | rfl | rfl | rfl <;> exact ⟨_, rfl⟩

theorem test_witness_StackMovesOnlyByCallAndReturn :
    (∃ t, step { start 0x200 [0x24, 0x00] [] with sp := 15 } = .next t) ∧
    (∃ t, step { start 0x200 [0x00, 0xEE] [] with sp := 16 } = .next t) := ⟨⟨_, rfl⟩, _, rfl⟩

theorem test_witness_RegistersChangeOnlyByTheirWriters :
    (∃ t, step (start 0x200 [0x6F, 0x12] []) = .next t ∧ t.getV 15 ≠ (start 0x200 [0x6F, 0x12] []).getV 15) ∧
    (∃ t, step (waitingAt false [7]) = .next t ∧ t.getV 3 ≠ (waitingAt false [7]).getV 3) :=
  ⟨⟨_, rfl, by decide⟩, _, rfl, by decide⟩

theorem test_witness_ChangedFlagMeansADisplayInstructionRan :
    (∃ t, step (start 0x200 [0xD1, 0x20] []) = .next t ∧ t.outputs.changed = true) ∧
    (∃ t, step (start 0x200 [0x60, 0x00] []) = .next t ∧ t.outputs.changed = false) :=
  ⟨⟨_, rfl, by decide⟩, _, rfl, by decide⟩

/-- Each clause: a skip, a call with the last slot free, the two jumps, a return from the last slot, a waiting tick. -/
theorem test_witness_PcAdvancesBeforeTheInstruction :
    (∃ t, step (start 0x208 [0x31, 0x00] []) = .next t ∧ (start 0x208 [0x31, 0x00] []).waiting = false) ∧
    (let s := { start 0x2F0 [0x24, 0x00] [] with sp := 15 }
     (∃ t, step s = .next t) ∧ s.sp < 16 ∧ s.Executes (.call 0x400)) ∧
    (∃ t, step (start 0x200 [0x1F, 0xFF] []) = .next t ∧ (start 0x200 [0x1F, 0xFF] []).Executes (.jp 0xFFF)) ∧
    (∃ t, step (start 0x200 [0xBF, 0xFF] []) = .next t ∧ (start 0x200 [0xBF, 0xFF] []).Executes (.jpV0 0xFFF)) ∧
    (let s := { start 0x200 [0x00, 0xEE] [] with sp := 16 }
     (∃ t, step s = .next t) ∧ (1 ≤ s.sp ∧ s.sp ≤ 16) ∧ s.Executes .ret) ∧
    (∃ t, step (waitingAt false []) = .next t ∧ (waitingAt false []).waiting = true) :=
  ⟨⟨_, rfl, rfl⟩, ⟨⟨_, rfl⟩, by decide, rfl, rfl, by decide, rfl⟩, ⟨_, rfl, rfl, rfl, by decide, rfl⟩,
    ⟨_, rfl, rfl, rfl, by decide, rfl⟩, ⟨⟨_, rfl⟩, by decide, rfl, rfl, by decide, rfl⟩, _, rfl, rfl⟩

/-- Each clause at the ends of its range of SP. -/
theorem test_witness_ReturnPopsOrFaults :
    (1 ≤ ({ State.reset with sp := 1 } : State).sp ∧ ({ State.reset with sp := 1 } : State).sp ≤ 16) ∧
    (1 ≤ ({ State.reset with sp := 16 } : State).sp ∧ ({ State.reset with sp := 16 } : State).sp ≤ 16) ∧
    State.reset.sp = 0 ∧ 16 < ({ State.reset with sp := 17 } : State).sp := by decide

/-- A call to 0x210, one ADD there, and the return. -/
def calling : State := State.placing (start 0x208 [0x22, 0x10] []) 0x210 [0x80, 0x14, 0x00, 0xEE]

/-- The return executes at depth 1, one tick after the call. -/
theorem test_witness_CallAndReturnPair : ∃ t u, calling.sp < 16 ∧ calling.Executes (.call 0x210) ∧ step calling = .next t ∧
    (∀ k v, k ≤ 1 → RunsTo k t v → calling.sp + 1 ≤ v.sp) ∧ RunsTo 1 t u ∧ u.sp = calling.sp + 1 ∧ u.Executes .ret := by
  refine ⟨after calling, after (after calling), by decide, ⟨rfl, rfl, by decide, rfl⟩, rfl, fun k v hk hv => ?_,
    runsTo_succ.mpr ⟨_, rfl, runsTo_zero.mpr rfl⟩, by decide, rfl, rfl, by decide, rfl⟩
  rcases k with _ | k
  · obtain rfl := runsTo_zero.mp hv
    decide
  · obtain rfl : k = 0 := by omega
    obtain ⟨w, hw, hv⟩ := runsTo_succ.mp hv
    obtain rfl := runsTo_zero.mp hv
    cases hw
    decide

/-- The premises x ≠ 15 and y ≠ 15 of AddImmediateWrapsWithoutAFlag, AddRegisterSetsTheCarryLast,
SubtractionsSetAStrictComparison, ShiftsKeepTheBitShiftedOut, FlagRegisterAsOperandIsSequential and
DrawingTwiceRestoresTheDisplay. -/
theorem test_witness_register_numbers : (14 : Reg) ≠ 15 ∧ (0 : Reg) ≠ 15 := by decide

theorem test_witness_RandomByteIsMaskedByKk :
    let s := start 0x200 [0xC3, 0x0F] []
    s.Executes (.rnd 3 0x0F) ∧ ∃ t, step s = .next t := ⟨⟨rfl, rfl, by decide, rfl⟩, _, rfl⟩

/-- The bounds of Fx33, Fx55, Fx65 and Dxyn, on both sides. -/
theorem test_witness_BcdStoresThreeDigitsOrFaults :
    ({ State.reset with i := 0xFFD } : State).i.toNat ≤ 4093 ∧ ({ State.reset with i := 0xFFD } : State).MemCanonical ∧
    4093 < ({ State.reset with i := 0xFFE } : State).i.toNat := ⟨by decide, rfl, by decide⟩

theorem test_witness_StoreBlockWritesRegistersOrFaults :
    ({ State.reset with i := 0xFF0 } : State).i.toNat + (15 : Reg).val ≤ 4095 ∧
    ({ State.reset with i := 0xFF0 } : State).MemCanonical ∧
    4095 < ({ State.reset with i := 0xFF1 } : State).i.toNat + (15 : Reg).val := ⟨by decide, rfl, by decide⟩

theorem test_witness_LoadBlockReadsRegistersOrFaults :
    ({ State.reset with i := 0xFFF } : State).i.toNat + (0 : Reg).val ≤ 4095 ∧
    4095 < ({ State.reset with i := 0xFFF } : State).i.toNat + (1 : Reg).val := by decide

theorem test_witness_StoreThenLoadRestoresTheRegisters :
    let s := { start 0x200 [] [(0, 1), (15, 2)] with i := 0xFF0 }
    s.MemCanonical ∧ ∃ t u : State, exec (.stRegs 15) s = .next t ∧ u.i = s.i ∧ u.mem = t.mem ∧ u.cfg = t.cfg ∧ u.getV 0 ≠ s.getV 0 :=
  ⟨rfl, _, { start 0x200 [] [] with
    i := 0xFF0, mem := Memory.writeBlock State.reset.cfg 0xFF0 [1, 0, 0, 0, 0, 0, 0, 0, 0, 0, 0, 0, 0, 0, 0, 2] [] },
    rfl, by decide, by decide, by decide, by decide⟩

/-- Fx55 over one byte of the next word (P8: 1200 out of 0000) and Fx33 at its last legal base, with the memory each
leaves, and after the second a later fetch of a word whose low byte is the first digit. -/
theorem test_witness_StoreIsSeenByTheNextFetch :
    (let s := { start 0x204 [0xF0, 0x55] [(0, 0x12)] with i := 0x206 }
     let b := fun a => if a = 0x206 then 0x12 else s.peek a
     s.MemCanonical ∧ step s = .next (after s) ∧ s.Executes (.stRegs 0) ∧ (∀ k : Reg, k ≤ 0 → b (s.i.toNat + k.val) = s.getV k) ∧
     (∀ a, a < s.i.toNat ∨ s.i.toNat + (0 : Reg).val < a → b a = s.peek a) ∧ (after s).pc.toNat ≤ 0xFFE ∧
     (after s).fault = none ∧ (after s).waiting = false ∧
     decodeWord (b (after s).pc.toNat ++ b ((after s).pc.toNat + 1)) = .ok (.jp 0x200)) ∧
    (let s := State.placing { start 0x204 [0xF0, 0x33] [(0, 199)] with i := 0xFFD } 0xFFC [0x12]
     let b := fun a => if a = 0xFFD then 1 else if a = 0xFFE ∨ a = 0xFFF then 9 else s.peek a
     let u := { after s with pc := 0xFFC }
     s.MemCanonical ∧ step s = .next (after s) ∧ s.Executes (.ldB 0) ∧ (b s.i.toNat).toNat = (s.getV 0).toNat / 100 ∧
     (b (s.i.toNat + 1)).toNat = (s.getV 0).toNat / 10 % 10 ∧ (b (s.i.toNat + 2)).toNat = (s.getV 0).toNat % 10 ∧
     (∀ a, a < s.i.toNat ∨ s.i.toNat + 3 ≤ a → b a = s.peek a) ∧ u.mem = (after s).mem ∧ u.cfg = (after s).cfg ∧
     u.pc.toNat ≤ 0xFFE ∧ u.fault = none ∧ u.waiting = false ∧
     decodeWord (b u.pc.toNat ++ b (u.pc.toNat + 1)) = .ok (.jp 0x201)) := by
  refine ⟨⟨rfl, rfl, ⟨rfl, rfl, by decide, rfl⟩, by decide, fun a ha => ?_, by decide, rfl, rfl, by decide⟩,
    ⟨rfl, rfl, ⟨rfl, rfl, by decide, rfl⟩, by decide, by decide, by decide, fun a ha => ?_, rfl, rfl, by decide, rfl, rfl,
      by decide⟩⟩
  · have : a < 0x206 ∨ 0x206 < a := ha
    exact if_neg (by omega)
  · have : a < 0xFFD ∨ 0x1000 ≤ a := ha
    exact (if_neg (by omega)).trans (if_neg (by omega))

theorem test_witness_DrawXorsEachSpriteBitOnce :
    ({ State.reset with i := 0xFF1 } : State).i.toNat + (15 : Count).val ≤ 4096 ∧ (0 : Count).val = 0 ∧
    (15 : Count).val ≠ 0 ∧ 4096 < ({ State.reset with i := 0xFF2 } : State).i.toNat + (15 : Count).val := by decide

/-- P4's sprite, drawn twice. -/
theorem test_witness_DrawingTwiceRestoresTheDisplay :
    let s := State.placing { start 0x200 [] [(1, 62), (2, 31)] with i := 0x300 } 0x300 [0xFF, 0x81]
    (1 : Reg) ≠ 15 ∧ (2 : Reg) ≠ 15 ∧ ∃ t u, exec (.drw 1 2 2) s = .next t ∧ exec (.drw 1 2 2) t = .next u :=
  ⟨by decide, by decide, _, _, rfl, rfl⟩

theorem test_witness_KeySkipsTestTheNumberedKeyOrFault :
    ((start 0x200 [] [(4, 15)]).getV 4).toNat < 16 ∧ 16 ≤ ((start 0x200 [] [(4, 16)]).getV 4).toNat := by decide

/-- Each clause: an image of each length at the ends of the range, one too long, machines no longer in their reset state
(by PC, and at PC = 0x200 before the first tick), a fresh machine, and a first load. -/
theorem test_witness_LoadPlacesTheImageAt0x200OrRefuses :
    (1 ≤ [(0 : Byte)].length ∧ [(0 : Byte)].length ≤ 3584) ∧
    (1 ≤ (List.replicate 3584 (0 : Byte)).length ∧ (List.replicate 3584 (0 : Byte)).length ≤ 3584) ∧
    3584 < (List.replicate 3585 (0 : Byte)).length ∧ (start 0x202 [] []).isFresh = false ∧
    (start 0x200 [] [(0, 1)]).isFresh = false ∧ (start 0x200 [] []).isFresh = true ∧
    ∃ t, State.load [0] State.reset = .next t := by
  simp only [List.length_replicate]
  exact ⟨by decide, by decide, by decide, by decide, by decide, by decide, _, rfl⟩

/-- U17: a second load is refused, after an all-zero image too -/
theorem test_second_load :
    answers (State.load [0, 0] State.reset) (fun t => State.load [0x12, 0x00] t matches .refused .loadAfterReset) := by
  decide

theorem test_witness_PlacedWordIsTheNextInstruction :
    (start 0x1000 [] []).MemCanonical ∧ decodeWord 0x6012 = .ok (.ldImm 0 0x12) := ⟨rfl, by decide⟩

theorem test_witness_StoppedProgramStaysStopped :
    (start 0x20A [0x12, 0x0A] []).StoppedAt 0x20A ∧ (start 0xFFE [0x1F, 0xFE] []).StoppedAt 0xFFE :=
  ⟨⟨rfl, rfl, rfl, by decide, rfl⟩, rfl, rfl, rfl, by decide, rfl⟩

end Sys2Proof.Tests
end

section
/-! PROOFS. What every completed tick leaves in the elements that no instruction writes (spec/00_scope.md R7, R8;
spec/40_tick_cycle.md R121, R133). -/

namespace Sys2Proof.Machine

/-- The elements that stand outside every `Frame` are, after a tick, as the latch left them: the scan, Execute and an
unrecognised word all keep them (R39). -/
theorem step_next_keeps_latched {s t : State} (h : step s = .next t) :
    t.keys = s.input.keys ∧ t.fault = none ∧ t.cfg = s.cfg ∧ t.inputs = s.inputs.tail ∧ t.ticks = s.ticks + 1 ∧
    t.rnd = s.input.rnd ∧ t.loaded = s.loaded := by
  have hf : s.fault = none := (step_next h).1
  rcases step_next_cases h with ⟨-, rfl⟩ | ⟨i, -, hx⟩ | ⟨-, -, rfl⟩
  · simp [hf]
  · obtain ⟨-, -, hkeys, hfault, hrest⟩ := exec_frame hx
    exact ⟨hkeys, hfault.trans hf, hrest⟩
  · exact ⟨rfl, hf, rfl, rfl, rfl, rfl, rfl⟩

/-- Settles O24: all six clauses are about elements that nothing in a tick writes after the latch. -/
theorem tickConsumesOneInputAndKeepsParameters : Obligations.TickConsumesOneInputAndKeepsParameters := by
  intro s t h
  obtain ⟨-, hfault, hcfg, hinputs, hticks, hrnd, hloaded⟩ := step_next_keeps_latched h
  exact ⟨hcfg, hinputs, hticks, hrnd, hloaded, hfault⟩

end Sys2Proof.Machine
end

section
/-! PROOFS. The state invariants, the state after reset, and which instruction writes which element of the state
(spec/10_state.md R22 to R39; spec/20_memory.md R63; spec/70_reset_and_hazards.md R300). -/

namespace Sys2Proof.Machine

/-! ### Memory stays canonical -/

/-- A key skip that completes leaves its state with or without a skip. -/
theorem withKey_next {s t : State} {b : Byte} {f : Bool → Bool} (h : s.withKey b (fun d => s.skipIf (f d)) = .next t) :
    ∃ c, t = s.skipIf c := by
  unfold State.withKey at h
  split at h <;> cases h
  exact ⟨_, rfl⟩

/-- Each of the six skips that completes leaves its state with or without a skip (R130). -/
theorem exec_skip_next {i : Instr} {s t : State} (hi : isSkip i = true) (h : exec i s = .next t) :
    ∃ c, t = s.skipIf c := by
  cases i with
  | skp x => exact withKey_next (f := fun d => d) h
  | sknp x => exact withKey_next (f := fun d => !d) h
  | seImm | sneImm | seReg | sneReg => cases h; exact ⟨_, rfl⟩
  | _ => cases hi

/-- A return that completes had SP from 1 to 16; it takes the slot below SP and writes nothing else (R150). -/
theorem exec_ret_next {s t : State} (h : exec .ret s = .next t) :
    ∃ hsp : 1 ≤ s.sp ∧ s.sp ≤ 16, t = { s with sp := s.sp - 1, pc := s.stack[s.sp - 1]'(by omega) } := by
  change s.popReturn = .next t at h
  rcases popReturn_cases s with ⟨-, hs⟩ | ⟨hsp, hs⟩ | ⟨-, hs⟩ <;> rw [hs] at h <;> cases h
  exact ⟨hsp, rfl⟩

/-- Loading registers leaves the memory list alone. -/
theorem loadRegs_mem {s t : State} {a : Nat} {ks : List Reg} (h : s.loadRegs a ks = .next t) : t.mem = s.mem := by
  induction ks generalizing s a with
  | nil => cases h; rfl
  | cons k ks ih =>
    unfold State.loadRegs at h
    split at h
    · exact (ih h).trans (setV_mem ..)
    · cases h

/-- A store that completes keeps memory canonical: each of its bytes went to an address below 4096. -/
theorem storeBytes_keeps_memCanonical {s t : State} {a : Nat} {ws : List Byte} (hm : s.MemCanonical)
    (h : s.storeBytes a ws = .next t) : t.MemCanonical := by
  induction ws generalizing s a with
  | nil => cases h; exact hm
  | cons w ws ih =>
    unfold State.storeBytes at h
    split at h
    · next ha => exact ih (wf_poke s hm ha w) h
    · cases h

/-- The memory list after an instruction: as it was, or as one completed store left it. -/
theorem exec_mem_cases {i : Instr} {s t : State} (h : exec i s = .next t) :
    t.mem = s.mem ∨ ∃ a ws, s.storeBytes a ws = .next t := by
  cases i with
  | ldB x => exact .inr ⟨_, _, h⟩
  | stRegs x => exact .inr ⟨_, _, h⟩
  | ret => obtain ⟨_, rfl⟩ := exec_ret_next h; exact .inl rfl
  | drw x y n =>
    change execDrw x y n s = .next t at h
    unfold execDrw at h
    split at h <;> cases h
    simp
  | skp | sknp => obtain ⟨c, rfl⟩ := exec_skip_next rfl h; simp
  | ldRegs x => exact .inl (loadRegs_mem h)
  | _ => cases h; simp

/-- Canonical memory is a matter of the list and the parameters only. -/
theorem memCanonical_congr {s t : State} (hmem : t.mem = s.mem) (hcfg : t.cfg = s.cfg) (h : s.MemCanonical) :
    t.MemCanonical := by
  unfold State.MemCanonical
  rwa [hmem, hcfg]

/-- An instruction that completes keeps memory canonical. -/
theorem exec_keeps_memCanonical {i : Instr} {s t : State} (hm : s.MemCanonical) (h : exec i s = .next t) :
    t.MemCanonical := by
  rcases exec_mem_cases h with hmem | ⟨a, ws, hstore⟩
  · obtain ⟨-, -, -, -, hcfg, -⟩ := exec_frame h
    exact memCanonical_congr hmem hcfg hm
  · exact storeBytes_keeps_memCanonical hm hstore

/-- Settles O20: only a store touches the memory list, and a store that completes stays below 4096. -/
theorem stepKeepsMemoryCanonical : Obligations.StepKeepsMemoryCanonical := by
  intro s t hm h
  rcases step_next_cases h with ⟨-, rfl⟩ | ⟨i, -, hx⟩ | ⟨-, -, rfl⟩
  · exact memCanonical_congr (by simp) (by simp) hm
  · exact exec_keeps_memCanonical (s := s.atExecute) hm hx
  · exact hm

/-! ### PC and the return addresses stay bounded -/

/-- Where a skip leaves PC. -/
theorem skipIf_pc_cases (s : State) (c : Bool) : (s.skipIf c).pc = s.pc ∨ (s.skipIf c).pc = s.pc + 2 := by
  cases c <;> simp

/-- Where an instruction leaves PC: in place, past one more word (R130), at an immediate target (R151, R152), at V[0] plus
one (R157), or at a stored return address (R150). -/
theorem exec_pc_cases {i : Instr} {s t : State} (h : exec i s = .next t) :
    (t.pc = s.pc ∨ t.pc = s.pc + 2) ∨ (∃ nnn, t.pc = zext16 nnn) ∨
    (∃ nnn, t.pc = zext16Byte (s.getV 0) + zext16 nnn) ∨ ∃ k : Fin 16, t.pc = s.stack[k] := by
  by_cases hp : Part.pc ∈ writesPart i
  · cases i with
    | ret =>
      obtain ⟨hsp, rfl⟩ := exec_ret_next h
      exact .inr (.inr (.inr ⟨⟨s.sp - 1, by omega⟩, rfl⟩))
    | jp nnn => cases h; exact .inr (.inl ⟨nnn, rfl⟩)
    | call nnn => cases h; exact .inr (.inl ⟨nnn, rfl⟩)
    | jpV0 nnn => cases h; exact .inr (.inr (.inl ⟨nnn, rfl⟩))
    | seImm | sneImm | seReg | sneReg | skp | sknp =>
      obtain ⟨c, rfl⟩ := exec_skip_next rfl h
      exact .inl (skipIf_pc_cases s c)
    | _ => simp [writesPart] at hp
  · exact .inl (.inl ((exec_frame h).1 .pc hp))

/-- SP and STACK after an instruction: as they were, or as a call (R152) or a return (R150) leaves them. -/
theorem exec_stack_cases {i : Instr} {s t : State} (h : exec i s = .next t) :
    (t.sp = s.sp ∧ t.stack = s.stack) ∨
    ((∃ nnn, i = .call nnn) ∧ t.sp = s.sp + 1 ∧ t.stack = (s.pushReturn s.pc).stack) ∨
    (i = .ret ∧ t.sp + 1 = s.sp ∧ t.stack = s.stack) := by
  by_cases hw : Part.sp ∈ writesPart i
  · cases i with
    | call nnn => cases h; exact .inr (.inl ⟨⟨nnn, rfl⟩, pushReturn_sp .., rfl⟩)
    | ret =>
      obtain ⟨hsp, rfl⟩ := exec_ret_next h
      exact .inr (.inr ⟨rfl, Nat.sub_add_cancel hsp.1, rfl⟩)
    | _ => simp [writesPart] at hw
  · have hstack : Part.stack ∉ writesPart i := fun hs => hw (by cases i <;> simp_all [writesPart])
    exact .inl ⟨(exec_frame h).1 .sp hw, (exec_frame h).1 .stack hstack⟩

/-- A stack slot after a call: the new return address at the old SP, the old entry elsewhere (D2: nowhere from 16 on). -/
theorem pushReturn_slot (s : State) (w : Word) (k : Fin 16) :
    (s.pushReturn w).stack[k] = if k.val = s.sp then w else s.stack[k] := by
  by_cases hsp : s.sp < 16
  · simp [hsp, Vector.getElem_set, eq_comm]
  · have hk : k.val ≠ s.sp := by omega
    simp [hsp, hk]

/-- From PC at most 0x1000, an instruction that completes keeps both bounds: the furthest it can go is Bnnn's
0xFF + 0xFFF = 0x10FE (R157). -/
theorem exec_keeps_pcBounded {i : Instr} {s t : State} (hpc : s.pc.toNat ≤ 0x1000)
    (hstack : ∀ k : Fin 16, s.stack[k].toNat ≤ 0x1000) (h : exec i s = .next t) : t.PcBounded := by
  constructor
  · rcases exec_pc_cases h with (hp | hp) | ⟨nnn, hp⟩ | ⟨nnn, hp⟩ | ⟨k, hp⟩ <;> rw [hp]
    · omega
    · bv_omega
    · have := nnn.isLt
      rw [zext16_toNat]
      omega
    · have := nnn.isLt
      have := (s.getV 0).isLt
      rw [BitVec.toNat_add, zext16Byte_toNat, zext16_toNat]
      omega
    · have := hstack k
      omega
  · intro k
    rcases exec_stack_cases h with ⟨-, hst⟩ | ⟨-, -, hst⟩ | ⟨-, -, hst⟩ <;> rw [hst]
    · exact hstack k
    · rw [pushReturn_slot]
      split
      · exact hpc
      · exact hstack k
    · exact hstack k

/-- Settles O21: a fetch needs PC at most 0xFFE, so Execute starts from PC at most 0x1000. -/
theorem stepKeepsPcReachable : Obligations.StepKeepsPcReachable := by
  intro s t ⟨hpc, hstack⟩ h
  obtain ⟨-, ⟨-, rfl⟩ | ⟨-, hfetch, hx⟩⟩ := step_next h
  · exact ⟨by simpa using hpc, by simpa using hstack⟩
  · have hpc' : (s.pc + 2).toNat ≤ 0x1000 := by bv_omega
    rcases execWord_next hx with ⟨i, -, hi⟩ | ⟨-, rfl⟩
    · exact exec_keeps_pcBounded (s := s.latch.countTimers.advance) hpc' hstack hi
    · exact ⟨Nat.le_trans hpc' (by decide), hstack⟩

/-! ### The state after reset -/

/-- Before anything is written, an address below 80 reads as FONT (R27, R28). -/
theorem unlisted_font (cfg : Config) (a : Nat) (h : a < 80) : Memory.unlisted cfg a = cfg.font[a] := dif_pos h

/-- Before anything is written, an address from 80 on reads as 0 (R28). -/
theorem unlisted_zero (cfg : Config) {a : Nat} (h : 80 ≤ a) : Memory.unlisted cfg a = 0 := dif_neg (by omega)

/-- After reset every byte reads as what nothing has written. -/
theorem resetWith_peek (cfg : Config) (a : Nat) : (State.resetWith cfg).peek a = Memory.unlisted cfg a := rfl

/-- Settles O23, element by element: the record's fields, and memory through `resetWith_peek`. -/
theorem resetLeavesEveryElementAtItsValue : Obligations.ResetLeavesEveryElementAtItsValue := by
  refine ⟨rfl, ?_⟩
  rintro cfg _ rfl
  refine ⟨fun x => ?_, rfl, rfl, fun k => ?_, rfl, rfl, rfl, Display.cell_blank, rfl, fun k => ?_, rfl, rfl, rfl, rfl,
    fun a ha => ?_, fun a ha => ?_⟩
  · simp [State.getV, State.resetWith]
  · simp [State.resetWith]
  · simp [State.resetWith]
  · rw [resetWith_peek, unlisted_font cfg a ha]
  · rw [resetWith_peek, unlisted_zero cfg ha]

/-- The reset state meets both invariants: nothing is listed in memory, PC is 0x200 and every return address 0. -/
theorem resetWith_meets_invariants (cfg : Config) :
    (State.resetWith cfg).MemCanonical ∧ (State.resetWith cfg).PcBounded := by
  refine ⟨Memory.wf_nil, ?_, fun k => ?_⟩ <;> simp [State.resetWith]

/-- Settles O22: the reset state is `resetWith` of this hardware's parameters. -/
theorem resetMeetsTheInvariants : Obligations.ResetMeetsTheInvariants :=
  ⟨(resetWith_meets_invariants _).1, (resetWith_meets_invariants _).2, resetWith_meets_invariants⟩

/-! ### Who writes what -/

/-- The elements a tick writes only through its instruction: not by the latch, the scan, the timers or the advance. -/
def instructionParts : List Part := [.i, .stack, .sp, .mem, .display, .waitReg]

/-- R39, per tick: such an element is kept unless the executed instruction is one of its writers. -/
theorem step_keeps_or_writes {s t : State} (h : step s = .next t) {p : Part} (hp : p ∈ instructionParts) :
    Keeps s t p ∨ ∃ i, s.Executes i ∧ p ∈ writesPart i := by
  have before : ∀ u, Keeps s.latch u p ∨ Keeps s.atExecute u p → Keeps s u p := fun u hu => by
    cases p <;> simp [instructionParts] at hp <;> exact hu.elim id id
  rcases step_next_cases h with ⟨-, rfl⟩ | ⟨i, hi, hx⟩ | ⟨-, -, rfl⟩
  · exact .inl (before _ (.inl ((scanKeys_frame s.latch).1 p (by cases p <;> simp_all [instructionParts]))))
  · by_cases hw : p ∈ writesPart i
    · exact .inr ⟨i, hi, hw⟩
    · exact .inl (before t (.inr ((exec_frame hx).1 p hw)))
  · exact .inl (before _ (.inr (by cases p <;> simp [Keeps])))

/-- The writers of MEM (R28). -/
theorem mem_mem_writesPart {i : Instr} (h : Part.mem ∈ writesPart i) : (∃ x, i = .ldB x) ∨ ∃ x, i = .stRegs x := by
  cases i <;> simp_all [writesPart]

/-- The writers of DISPLAY (R29). -/
theorem display_mem_writesPart {i : Instr} (h : Part.display ∈ writesPart i) : i = .cls ∨ ∃ x y n, i = .drw x y n := by
  cases i <;> simp_all [writesPart]

/-- Settles O25: what differs was not kept, so the tick executed one of its writers. -/
theorem memoryAndDisplayHaveTheirWriters : Obligations.MemoryAndDisplayHaveTheirWriters := by
  intro s t h
  constructor
  · intro a ha
    rcases step_keeps_or_writes h (p := .mem) (by simp [instructionParts]) with hk | ⟨i, hi, hw⟩
    · exact absurd (hk a) ha
    · rcases mem_mem_writesPart hw with ⟨x, rfl⟩ | ⟨x, rfl⟩
      · exact .inl ⟨x, hi⟩
      · exact .inr ⟨x, hi⟩
  · intro hd
    rcases step_keeps_or_writes h (p := .display) (by simp [instructionParts]) with hk | ⟨i, hi, hw⟩
    · exact absurd hk hd
    · rcases display_mem_writesPart hw with rfl | ⟨x, y, n, rfl⟩
      · exact .inl hi
      · exact .inr ⟨x, y, n, hi⟩

/-- Settles O27: the tick's own steps leave SP and STACK alone, and Execute moves them as a call or a return does. -/
theorem stackMovesOnlyByCallAndReturn : Obligations.StackMovesOnlyByCallAndReturn := by
  intro s t h
  rcases step_next_cases h with ⟨-, rfl⟩ | ⟨i, hi, hx⟩ | ⟨-, -, rfl⟩
  · exact .inl (by simp)
  · rcases exec_stack_cases hx with hkept | ⟨⟨nnn, rfl⟩, hsp, hstack⟩ | ⟨rfl, hmoved⟩
    · exact .inl hkept
    · refine .inr (.inl ⟨⟨nnn, hi⟩, hsp, fun k hk => ?_⟩)
      rw [hstack, pushReturn_slot]
      exact if_neg hk
    · exact .inr (.inr ⟨hi, hmoved⟩)
  · exact .inl ⟨rfl, rfl⟩

/-- Settles O28: the scan writes V[WAIT_REG] at most, and an instruction the registers `writesV` names. -/
theorem registersChangeOnlyByTheirWriters : Obligations.RegistersChangeOnlyByTheirWriters := by
  intro s t y h hy
  rcases step_next_cases h with ⟨hw, rfl⟩ | ⟨i, hi, hx⟩ | ⟨-, -, rfl⟩
  · obtain ⟨-, hv, -⟩ := scanKeys_frame s.latch
    refine .inl ⟨hw, by_contra fun hne => hy ?_⟩
    exact (hv y (by simpa using hne)).trans (latch_getV s y)
  · obtain ⟨-, hv, -⟩ := exec_frame hx
    exact .inr ⟨i, hi, by_contra fun hne => hy (hv y hne)⟩
  · exact absurd rfl hy

end Sys2Proof.Machine
end

section
/-! PROOFS. Memory and the fetch (spec/20_memory.md R62, R64, R71; spec/70_reset_and_hazards.md R304): a fetch reads the two
bytes at PC as memory holds them, so it sees a placed word and every completed store. -/

namespace Sys2Proof.Machine

/-! ### The fetch -/

/-- A fetch in range is the two bytes at PC, high byte first (R62). -/
theorem fetch_eq_wordAtPc {s : State} (hpc : s.pc.toNat ≤ 0xFFE) : s.fetch = .ok s.wordAtPc :=
  if_pos (Nat.lt_succ_of_le hpc)

/-- What memory holds at PC and just above is the word at PC. -/
theorem wordAtPc_of_peek {s : State} {b : Nat → Byte} (hb : ∀ a, s.peek a = b a) :
    s.wordAtPc = b s.pc.toNat ++ b (s.pc.toNat + 1) := by
  rw [State.wordAtPc, hb, hb]

/-! ### A placed word -/

/-- A word stored at PC by its two bytes (R64) is the word at PC. -/
theorem wordAtPc_of_bytesOfWord {s : State} {w : Word} {m : Memory} (hwf : Memory.wf s.cfg m) (hpc : s.pc.toNat ≤ 0xFFE)
    (hmem : s.mem = Memory.writeBlock s.cfg s.pc.toNat (bytesOfWord w) m) : s.wordAtPc = w := by
  have hfit : s.pc.toNat + (bytesOfWord w).length ≤ 4096 := Nat.add_le_add_right hpc 2
  have hhi : s.peek s.pc.toNat = w.extractLsb' 8 8 := by
    rw [State.peek, hmem]
    exact Memory.read_writeBlock hwf _ _ hfit 0 (by simp [bytesOfWord])
  have hlo : s.peek (s.pc.toNat + 1) = w.extractLsb' 0 8 := by
    rw [State.peek, hmem]
    exact Memory.read_writeBlock hwf _ _ hfit 1 (by simp [bytesOfWord])
  rw [State.wordAtPc, hhi, hlo]
  exact wordOfBytes_bytesOfWord w

/-- The place `withFetchWord` picks has room for a word. -/
theorem withFetchWord_pc_le (s : State) (nbits w : Nat) : (s.withFetchWord nbits w).pc.toNat ≤ 0xFFE := by
  change (if s.pc.toNat < 0xFFF then s.pc else (0x200 : Word)).toNat ≤ 0xFFE
  split
  · omega
  · decide

/-- Placing a word of 16 bits puts its two bytes at the PC it leaves. -/
theorem withFetchWord_mem (s : State) (w : Word) : (s.withFetchWord 16 w.toNat).mem =
    Memory.writeBlock s.cfg (s.withFetchWord 16 w.toNat).pc.toNat (bytesOfWord w) s.mem := by
  have hw : BitVec.ofNat 16 (w.toNat % 2 ^ 16) = w := by
    rw [Nat.mod_eq_of_lt w.isLt, BitVec.ofNat_toNat, BitVec.setWidth_eq]
  unfold State.withFetchWord
  rw [hw]

/-- Settles O59: the placed word stands at PC, PC is in range, and nothing is in the way of the fetch. -/
theorem placedWordIsTheNextInstruction : Obligations.PlacedWordIsTheNextInstruction := by
  intro s w i hm hw
  have hpc := withFetchWord_pc_le s 16 w.toNat
  have hword : (s.withFetchWord 16 w.toNat).wordAtPc = w :=
    wordAtPc_of_bytesOfWord hm hpc (withFetchWord_mem s w)
  exact ⟨rfl, rfl, hpc, by rw [hword, hw]⟩

/-! ### A store and the fetches after it -/

/-- `b` is the memory of `s` after the bytes `ws` are stored from I upward. -/
def State.StoresFromI (s : State) (ws : List Byte) (b : Nat → Byte) : Prop :=
  (∀ k (hk : k < ws.length), b (s.i.toNat + k) = ws[k]) ∧
  ∀ a, a < s.i.toNat ∨ s.i.toNat + ws.length ≤ a → b a = s.peek a

/-- Fx55's bytes (R204), register by register. -/
theorem storesFromI_regs {s : State} {x : Reg} {b : Nat → Byte} (hin : ∀ k : Reg, k ≤ x → b (s.i.toNat + k.val) = s.getV k)
    (hout : ∀ a, a < s.i.toNat ∨ s.i.toNat + x.val < a → b a = s.peek a) :
    s.StoresFromI ((regsUpTo x).map s.getV) b := by
  refine ⟨fun k hk => ?_, fun a ha => hout a (by simpa [Nat.add_one_le_iff, ← Nat.add_assoc] using ha)⟩
  have hkx : k ≤ x.val := by simpa [Nat.lt_succ_iff] using hk
  simpa using hin ⟨k, by omega⟩ hkx

/-- Fx33's bytes (R203), digit by digit. -/
theorem storesFromI_digits {s : State} {v : Byte} {b : Nat → Byte} (h0 : (b s.i.toNat).toNat = v.toNat / 100)
    (h1 : (b (s.i.toNat + 1)).toNat = v.toNat / 10 % 10) (h2 : (b (s.i.toNat + 2)).toNat = v.toNat % 10)
    (hout : ∀ a, a < s.i.toNat ∨ s.i.toNat + 3 ≤ a → b a = s.peek a) : s.StoresFromI (decimalDigits v) b := by
  refine ⟨fun k hk => ?_, hout⟩
  match k, hk with
  | 0, _ => simp [decimalDigits, ← h0]
  | 1, _ => simp [decimalDigits, ← h1]
  | 2, _ => simp [decimalDigits, ← h2]

/-- A store that completes leaves in memory its bytes from I upward and the old bytes elsewhere (R63, R73). -/
theorem storeBytes_peek {s t : State} {ws : List Byte} {b : Nat → Byte} (hm : s.MemCanonical) (hb : s.StoresFromI ws b)
    (h : s.storeBytes s.i.toNat ws = .next t) (a : Nat) : t.peek a = b a := by
  obtain ⟨hin, hout⟩ := hb
  by_cases hfit : s.i.toNat + ws.length ≤ 4096
  · obtain ⟨m, hstore, hkept, hstored⟩ := storeBytes_fits s _ ws hfit
    rw [hstore] at h
    cases h
    by_cases ha : a < s.i.toNat ∨ s.i.toNat + ws.length ≤ a
    · exact (hkept a ha).trans (hout a ha).symm
    · obtain ⟨k, rfl⟩ := Nat.exists_eq_add_of_le (show s.i.toNat ≤ a by omega)
      have hk : k < ws.length := by omega
      exact ((hstored hm).2 k hk).trans (hin k hk).symm
  · by_cases hne : ws = []
    · subst hne
      cases h
      exact (hout a (by simp; omega)).symm
    · rw [storeBytes_overruns s _ ws hne (by omega)] at h
      cases h

/-- A tick that completes has run the instruction it executes. -/
theorem step_executes_next {s t : State} {i : Instr} (hi : s.Executes i) (h : step s = .next t) :
    exec i s.atExecute = .next t := by
  have ⟨_, hw, _⟩ := hi
  rcases step_next_cases h with ⟨hw', -⟩ | ⟨j, hj, hx⟩ | ⟨-, hno, -⟩
  · simp [hw] at hw'
  · exact executes_unique hi hj ▸ hx
  · exact absurd hi (hno i)

/-- Once memory holds `b`, every fetch in range reads `b`, and the tick executes what it says (R71). -/
theorem fetch_reads {u : State} {b : Nat → Byte} (hb : ∀ a, u.peek a = b a) (hpc : u.pc.toNat ≤ 0xFFE) :
    u.fetch = .ok (b u.pc.toNat ++ b (u.pc.toNat + 1)) ∧
    (u.fault = none → u.waiting = false →
      ∀ i, decodeWord (b u.pc.toNat ++ b (u.pc.toNat + 1)) = .ok i → u.Executes i) := by
  rw [← wordAtPc_of_peek hb]
  exact ⟨fetch_eq_wordAtPc hpc, fun hf hw i hi => ⟨hf, hw, hpc, hi⟩⟩

/-- Settles O51: a tick of either instruction is one completed store from Execute's state, whose registers, I and memory are
those of `s`; that store leaves memory holding `b`, and a fetch reads memory only. -/
theorem storeIsSeenByTheNextFetch : Obligations.StoreIsSeenByTheNextFetch := by
  intro s t b hm h hcase
  obtain ⟨i, ws, hi, hb, hexec⟩ : ∃ i ws, s.Executes i ∧ s.atExecute.StoresFromI ws b ∧
      exec i s.atExecute = s.atExecute.storeBytes s.i.toNat ws := by
    rcases hcase with ⟨x, hx, hin, hout⟩ | ⟨x, hx, h0, h1, h2, hout⟩
    · exact ⟨_, _, hx, storesFromI_regs (s := s.atExecute) hin hout, rfl⟩
    · exact ⟨_, _, hx, storesFromI_digits (s := s.atExecute) h0 h1 h2 hout, rfl⟩
  have hstore := hexec.symm.trans (step_executes_next hi h)
  have hpeek := storeBytes_peek (s := s.atExecute) hm hb hstore
  obtain ⟨-, hwaiting, -⟩ := hi
  obtain ⟨hkeeps, -⟩ := frame_storeBytes hstore
  obtain ⟨-, hfault, -⟩ := step_next_keeps_latched h
  refine ⟨hkeeps .pc (by simp), hfault, (hkeeps .waiting (by simp)).trans hwaiting, fun u hmem hcfg hpc => ?_⟩
  exact fetch_reads (fun a => (peek_congr hmem hcfg a).trans (hpeek a)) hpc

end Sys2Proof.Machine
end

section
/-! PROOFS. Decode and encode (spec/30_encoding.md R90 to R98): they are inverse to each other, the decoder and the opcode
table agree, an unrecognised word is a no-op, and no instruction is refused. -/

namespace Sys2Proof

/-! ### A word is put together from its own fields (R91, R92)

The premises are the decoder's switches (R95); the other fields are the word's own. -/

theorem formatI_eq_formatA (op : BitVec 4) (x : Reg) (kk : Byte) : formatI op x kk = formatA op (nibble x ++ kk) :=
  BitVec.append_assoc

theorem formatR_eq_formatI (op : BitVec 4) (x y : Reg) (m : BitVec 4) :
    formatR op x y m = formatI op x (nibble y ++ m) :=
  BitVec.append_assoc

/-- `nnn` is `x` and `kk` in a row. -/
theorem nibble_fieldX_append_fieldKk (w : Word) : nibble (fieldX w) ++ fieldKk w = fieldNnn w :=
  BitVec.extractLsb'_append_extractLsb'_eq_extractLsb' rfl

/-- `kk` is `y` and `n` in a row. -/
theorem nibble_fieldY_append_fieldN (w : Word) : nibble (fieldY w) ++ nibble (fieldN w) = fieldKk w :=
  BitVec.extractLsb'_append_extractLsb'_eq_extractLsb' rfl

theorem formatA_of_fields {w : Word} {op : BitVec 4} (hop : (fieldOp w).val = op.toNat) :
    formatA op (fieldNnn w) = w := by
  obtain rfl : nibble (fieldOp w) = op := BitVec.eq_of_toNat_eq hop
  calc nibble (fieldOp w) ++ fieldNnn w
    _ = w.extractLsb' 0 16 := BitVec.extractLsb'_append_extractLsb'_eq_extractLsb' rfl
    _ = w := BitVec.extractLsb'_eq_self

theorem formatI_of_fields {w : Word} {op : BitVec 4} (hop : (fieldOp w).val = op.toNat) :
    formatI op (fieldX w) (fieldKk w) = w := by
  rw [formatI_eq_formatA, nibble_fieldX_append_fieldKk, formatA_of_fields hop]

theorem formatR_of_fields {w : Word} {op m : BitVec 4} (hop : (fieldOp w).val = op.toNat)
    (hn : (fieldN w).val = m.toNat) : formatR op (fieldX w) (fieldY w) m = w := by
  obtain rfl : nibble (fieldN w) = m := BitVec.eq_of_toNat_eq hn
  rw [formatR_eq_formatI, nibble_fieldY_append_fieldN, formatI_of_fields hop]

theorem formatX_of_fields {w : Word} {op : BitVec 4} {m : Byte} (hop : (fieldOp w).val = op.toNat)
    (hkk : (fieldKk w).toNat = m.toNat) : formatX op (fieldX w) m = w := by
  obtain rfl := BitVec.eq_of_toNat_eq hkk
  exact formatI_of_fields hop

/-! ### Decode and encode are inverse to each other -/

/-- An instruction's word decodes to the instruction: the decoder's switches read the opcodes the format put in, and every
operand comes back from its field. -/
theorem decodeWord_encode (i : Instr) : decodeWord (encode i) = .ok i := by
  cases i with
  | cls | ret => rfl
  | jp | call | ldI | jpV0 => simp [encode, decodeWord]
  | seImm | sneImm | ldImm | addImm | rnd => simp [encode, decodeWord]
  | seReg | sneReg | drw => simp [encode, decodeWord, nibble]
  | ldReg | orReg | andReg | xorReg | addReg | subReg | shr | subnReg | shl => simp [encode, decodeWord, decode8]
  | skp | sknp => simp [encode, decodeWord, decodeE]
  | ldVxDt | ldVxK | ldDtVx | ldStVx | addI | ldF | ldB | stRegs | ldRegs => simp [encode, decodeWord, decodeF]

/-- R90, R62: decoding the bytes of a recognised word takes those two bytes and leaves the rest. -/
theorem decodeBytes_bytesOfWord {w : Word} {i : Instr} (h : decodeWord w = .ok i) (rest : List Byte) :
    decodeBytes (bytesOfWord w ++ rest) = .ok (i, rest) := by
  simp [bytesOfWord, decodeBytes, h]

/-- Settles O2, through the word and then through its bytes. -/
theorem decodeOfEncodeIsTheInstruction : Obligations.DecodeOfEncodeIsTheInstruction := fun i rest =>
  ⟨decodeWord_encode i, decodeBytes_bytesOfWord (decodeWord_encode i) rest⟩

/-- Settles O1: each word is the encoding of the instruction it stands for. -/
theorem decodesTheWordsTheSpecWritesOut : Obligations.DecodesTheWordsTheSpecWritesOut :=
  ⟨decodeBytes_bytesOfWord (decodeWord_encode (.ldImm 0 0x12)) [],
    decodeBytes_bytesOfWord (decodeWord_encode (.jp 0x200)) [],
    decodeBytes_bytesOfWord (decodeWord_encode .cls) [],
    decodeWord_encode (.drw 1 2 5), decodeWord_encode (.addReg 3 10), decodeWord_encode (.ldRegs 10),
    decodeWord_encode (.sknp 11)⟩

theorem encode_of_decodeZ {w : Word} {i : Instr} (h : decodeZ w = .ok i) : encode i = w := by
  unfold decodeZ at h
  split at h
  · cases h; exact Eq.symm ‹_›
  · split at h <;> cases h
    exact Eq.symm ‹_›

theorem encode_of_decode8 {w : Word} {i : Instr} (hop : (fieldOp w).val = 0x8) (h : decode8 w = .ok i) : encode i = w := by
  unfold decode8 at h
  split at h <;> cases h <;> exact formatR_of_fields hop ‹_›

theorem encode_of_decodeE {w : Word} {i : Instr} (hop : (fieldOp w).val = 0xE) (h : decodeE w = .ok i) : encode i = w := by
  unfold decodeE at h
  split at h <;> cases h <;> exact formatX_of_fields hop ‹_›

theorem encode_of_decodeF {w : Word} {i : Instr} (hop : (fieldOp w).val = 0xF) (h : decodeF w = .ok i) : encode i = w := by
  unfold decodeF at h
  split at h <;> cases h <;> exact formatX_of_fields hop ‹_›

/-- A recognised word is the encoding of what it decodes to: the switches say the opcodes, and every other field stands in
an operand. Case `h_k` is the opcode k - 1 of R95. -/
theorem encode_of_decodeWord {w : Word} {i : Instr} (h : decodeWord w = .ok i) : encode i = w := by
  unfold decodeWord at h
  split at h
  case h_1 => exact encode_of_decodeZ h
  case h_9 hop => exact encode_of_decode8 hop h
  case h_15 hop => exact encode_of_decodeE hop h
  case h_16 hop => exact encode_of_decodeF hop h
  case h_6 hop | h_10 hop =>
    split at h <;> cases h
    exact formatR_of_fields hop ‹_›
  case h_2 hop | h_3 hop | h_11 hop | h_12 hop => cases h; exact formatA_of_fields hop
  case h_4 hop | h_5 hop | h_7 hop | h_8 hop | h_13 hop => cases h; exact formatI_of_fields hop
  case h_14 hop => cases h; exact formatR_of_fields hop rfl
  case h_17 => cases h

/-- Settles O3, group by group of the decoder's switch. -/
theorem encodeOfDecodeIsTheWord : Obligations.EncodeOfDecodeIsTheWord := fun _ _ => encode_of_decodeWord

/-! ### The decoder and the opcode table agree -/

/-- A masked word has the value's bits in every field the mask keeps whole. -/
theorem extractLsb'_of_mask {w mask value : Word} (h : w &&& mask = value) {start len : Nat}
    (hm : mask.extractLsb' start len = BitVec.allOnes len) :
    w.extractLsb' start len = value.extractLsb' start len := by
  rw [← h, BitVec.extractLsb'_and, hm, BitVec.and_allOnes]

/-- The mask of the formats A, I and D keeps the opcode. -/
theorem op_of_mask {w : Word} {op : BitVec 4} (h : w &&& 0xF000 = formatA op 0) : (fieldOp w).val = op.toNat := by
  have hop : fieldOp w = fieldOp (formatA op 0) := congrArg BitVec.toFin (extractLsb'_of_mask h rfl)
  simp [hop]

/-- The mask of format R keeps the opcode and `n`. -/
theorem formatR_of_mask {w : Word} {op m : BitVec 4} (h : w &&& 0xF00F = formatR op 0 0 m) :
    formatR op (fieldX w) (fieldY w) m = w := by
  have hop : fieldOp w = fieldOp (formatR op 0 0 m) := congrArg BitVec.toFin (extractLsb'_of_mask h rfl)
  have hn : fieldN w = fieldN (formatR op 0 0 m) := congrArg BitVec.toFin (extractLsb'_of_mask h rfl)
  exact formatR_of_fields (by simp [hop]) (by simp [hn])

/-- The mask of format X keeps the opcode and `kk`. -/
theorem formatX_of_mask {w : Word} {op : BitVec 4} {m : Byte} (h : w &&& 0xF0FF = formatX op 0 m) :
    formatX op (fieldX w) m = w := by
  have hop : fieldOp w = fieldOp (formatX op 0 m) := congrArg BitVec.toFin (extractLsb'_of_mask h rfl)
  have hkk : fieldKk w = fieldKk (formatX op 0 m) := extractLsb'_of_mask h rfl
  exact formatX_of_fields (by simp [hop]) (by simp [hkk])

/-- A word that selects an instruction's row is the encoding of an instruction of that row, the word's own fields being its
operands. -/
theorem exists_encode_of_selects {i : Instr} {w : Word} (h : i.row.selects w = true) :
    ∃ j : Instr, j.row = i.row ∧ encode j = w := by
  have h := of_decide_eq_true h
  cases i with
  | cls => exact ⟨.cls, rfl, h.symm.trans BitVec.and_allOnes⟩
  | ret => exact ⟨.ret, rfl, h.symm.trans BitVec.and_allOnes⟩
  | jp => exact ⟨.jp (fieldNnn w), rfl, formatA_of_fields (op_of_mask h)⟩
  | call => exact ⟨.call (fieldNnn w), rfl, formatA_of_fields (op_of_mask h)⟩
  | seImm => exact ⟨.seImm (fieldX w) (fieldKk w), rfl, formatI_of_fields (op_of_mask h)⟩
  | sneImm => exact ⟨.sneImm (fieldX w) (fieldKk w), rfl, formatI_of_fields (op_of_mask h)⟩
  | seReg => exact ⟨.seReg (fieldX w) (fieldY w), rfl, formatR_of_mask h⟩
  | ldImm => exact ⟨.ldImm (fieldX w) (fieldKk w), rfl, formatI_of_fields (op_of_mask h)⟩
  | addImm => exact ⟨.addImm (fieldX w) (fieldKk w), rfl, formatI_of_fields (op_of_mask h)⟩
  | ldReg => exact ⟨.ldReg (fieldX w) (fieldY w), rfl, formatR_of_mask h⟩
  | orReg => exact ⟨.orReg (fieldX w) (fieldY w), rfl, formatR_of_mask h⟩
  | andReg => exact ⟨.andReg (fieldX w) (fieldY w), rfl, formatR_of_mask h⟩
  | xorReg => exact ⟨.xorReg (fieldX w) (fieldY w), rfl, formatR_of_mask h⟩
  | addReg => exact ⟨.addReg (fieldX w) (fieldY w), rfl, formatR_of_mask h⟩
  | subReg => exact ⟨.subReg (fieldX w) (fieldY w), rfl, formatR_of_mask h⟩
  | shr => exact ⟨.shr (fieldX w) (fieldY w), rfl, formatR_of_mask h⟩
  | subnReg => exact ⟨.subnReg (fieldX w) (fieldY w), rfl, formatR_of_mask h⟩
  | shl => exact ⟨.shl (fieldX w) (fieldY w), rfl, formatR_of_mask h⟩
  | sneReg => exact ⟨.sneReg (fieldX w) (fieldY w), rfl, formatR_of_mask h⟩
  | ldI => exact ⟨.ldI (fieldNnn w), rfl, formatA_of_fields (op_of_mask h)⟩
  | jpV0 => exact ⟨.jpV0 (fieldNnn w), rfl, formatA_of_fields (op_of_mask h)⟩
  | rnd => exact ⟨.rnd (fieldX w) (fieldKk w), rfl, formatI_of_fields (op_of_mask h)⟩
  | drw => exact ⟨.drw (fieldX w) (fieldY w) (fieldN w), rfl, formatR_of_fields (op_of_mask h) rfl⟩
  | skp => exact ⟨.skp (fieldX w), rfl, formatX_of_mask h⟩
  | sknp => exact ⟨.sknp (fieldX w), rfl, formatX_of_mask h⟩
  | ldVxDt => exact ⟨.ldVxDt (fieldX w), rfl, formatX_of_mask h⟩
  | ldVxK => exact ⟨.ldVxK (fieldX w), rfl, formatX_of_mask h⟩
  | ldDtVx => exact ⟨.ldDtVx (fieldX w), rfl, formatX_of_mask h⟩
  | ldStVx => exact ⟨.ldStVx (fieldX w), rfl, formatX_of_mask h⟩
  | addI => exact ⟨.addI (fieldX w), rfl, formatX_of_mask h⟩
  | ldF => exact ⟨.ldF (fieldX w), rfl, formatX_of_mask h⟩
  | ldB => exact ⟨.ldB (fieldX w), rfl, formatX_of_mask h⟩
  | stRegs => exact ⟨.stRegs (fieldX w), rfl, formatX_of_mask h⟩
  | ldRegs => exact ⟨.ldRegs (fieldX w), rfl, formatX_of_mask h⟩

/-- The table's rows are the rows of the instructions. -/
theorem mem_opcodeTable_iff {r : OpcodeRow} : r ∈ opcodeTable ↔ ∃ i : Instr, i.row = r := by
  constructor
  · intro hr
    obtain ⟨i, -, hi⟩ := List.mem_map.mp hr
    exact ⟨i, hi⟩
  · rintro ⟨i, rfl⟩
    cases i <;> simp [opcodeTable, Instr.row]

/-- R94: the encoded word selects the instruction's row. -/
theorem row_selects_encode (i : Instr) : i.row.selects (encode i) = true := by
  refine decide_eq_true ?_
  cases i with
  | cls | ret => rfl
  | jp | call | ldI | jpV0 => exact Laws.EncodesItsRow.maskA ..
  | seImm | sneImm | ldImm | addImm | rnd => exact Laws.EncodesItsRow.maskI ..
  | drw => exact Laws.EncodesItsRow.maskD ..
  | seReg | ldReg | orReg | andReg | xorReg | addReg | subReg | shr | subnReg | shl | sneReg =>
    exact Laws.EncodesItsRow.maskR ..
  | skp | sknp | ldVxDt | ldVxK | ldDtVx | ldStVx | addI | ldF | ldB | stRegs | ldRegs =>
    exact Laws.EncodesItsRow.maskX ..

/-- A word selects a row of the table exactly when it decodes to an instruction of that row. -/
theorem selects_iff_decodeWord {r : OpcodeRow} {w : Word} (hr : r ∈ opcodeTable) :
    r.selects w = true ↔ ∃ i, decodeWord w = .ok i ∧ i.row = r := by
  obtain ⟨i, rfl⟩ := mem_opcodeTable_iff.mp hr
  constructor
  · intro h
    obtain ⟨j, hrow, rfl⟩ := exists_encode_of_selects h
    exact ⟨j, decodeWord_encode j, hrow⟩
  · rintro ⟨j, hj, hrow⟩
    rw [← hrow, ← encode_of_decodeWord hj]
    exact row_selects_encode j

/-- The decoder's only answer but an instruction is the word's own rejection (R96). -/
theorem decodeWord_error_eq {w : Word} {r : Reject} (h : decodeWord w = .error r) : r = .unrecognised w := by
  unfold decodeWord decodeZ decode8 decodeE decodeF at h
  (repeat' split at h) <;> cases h <;> rfl

/-- A word is rejected exactly when it selects no row. -/
theorem decodeWord_unrecognised_iff {w : Word} :
    decodeWord w = .error (.unrecognised w) ↔ ∀ r ∈ opcodeTable, r.selects w = false := by
  constructor
  · intro h r hr
    refine Bool.eq_false_iff.mpr fun hsel => ?_
    obtain ⟨i, hi, -⟩ := (selects_iff_decodeWord hr).mp hsel
    rw [h] at hi
    cases hi
  · intro hnone
    cases hd : decodeWord w with
    | error r => rw [decodeWord_error_eq hd]
    | ok i =>
      have hr : i.row ∈ opcodeTable := mem_opcodeTable_iff.mpr ⟨i, rfl⟩
      have hsel := (selects_iff_decodeWord hr).mpr ⟨i, hd, rfl⟩
      rw [hnone _ hr] at hsel
      cases hsel

/-- Settles O4: selecting a row of the table is decoding to an instruction of that row, and a word decodes to one
instruction at most. -/
theorem decoderAgreesWithTheOpcodeTable : Obligations.DecoderAgreesWithTheOpcodeTable := by
  refine ⟨rfl, fun w i hi => ?_, fun w => decodeWord_unrecognised_iff, fun w r q hr hq hrw hqw => ?_⟩
  · have hr : i.row ∈ opcodeTable := mem_opcodeTable_iff.mpr ⟨i, rfl⟩
    exact ⟨hr, (selects_iff_decodeWord hr).mpr ⟨i, hi, rfl⟩⟩
  · obtain ⟨i, hi, rfl⟩ := (selects_iff_decodeWord hr).mp hrw
    obtain ⟨j, hj, rfl⟩ := (selects_iff_decodeWord hq).mp hqw
    rw [Except.ok.inj (hi.symm.trans hj)]

end Sys2Proof
end

section
/-! PROOFS. What follows for the tick: an unrecognised word is a no-op (spec/30_encoding.md R96), and no instruction is
refused (R98, spec/40_tick_cycle.md R128). -/

namespace Sys2Proof.Machine

/-! ### An unrecognised word -/

/-- A tick that fetches a word of no row leaves what Execute found. -/
theorem step_unrecognised {s : State} (hf : s.fault = none) (hw : s.waiting = false) (hpc : s.pc.toNat ≤ 0xFFE)
    (hnone : ∀ r ∈ opcodeTable, r.selects s.wordAtPc = false) : step s = .next s.latch.countTimers.advance := by
  rcases step_cases s with ⟨f, hf', -⟩ | ⟨-, hw', -⟩ | ⟨-, -, hpc', -⟩ | ⟨-, -, -, hs⟩
  · simp [hf] at hf'
  · simp [hw] at hw'
  · omega
  · rw [hs, execWord_error (decodeWord_unrecognised_iff.mpr hnone)]

/-- Settles O6, element by element of the state after the latch, the timers and the advance. -/
theorem unrecognisedWordOnlyAdvances : Obligations.UnrecognisedWordOnlyAdvances := by
  intro s hf hw hpc hnone
  exact ⟨_, step_unrecognised hf hw hpc hnone, by simp [countdown_toNat, hf, hw]⟩

/-! ### Nothing is refused -/

theorem storeBytes_ne_refused (s : State) (a : Nat) (ws : List Byte) (r : Refusal) : s.storeBytes a ws ≠ .refused r := by
  induction ws generalizing s a with
  | nil => exact nofun
  | cons w ws ih =>
    unfold State.storeBytes
    split
    · exact ih _ _
    · exact nofun

theorem loadRegs_ne_refused (s : State) (a : Nat) (ks : List Reg) (r : Refusal) : s.loadRegs a ks ≠ .refused r := by
  induction ks generalizing s a with
  | nil => exact nofun
  | cons k ks ih =>
    unfold State.loadRegs
    split
    · exact ih _ _
    · exact nofun

theorem withKey_ne_refused (s : State) (b : Byte) (next : Bool → State) (r : Refusal) : s.withKey b next ≠ .refused r := by
  unfold State.withKey
  split <;> exact nofun

theorem popReturn_ne_refused (s : State) (r : Refusal) : s.popReturn ≠ .refused r := by
  rcases popReturn_cases s with ⟨_, h⟩ | ⟨_, h⟩ | ⟨_, h⟩ <;> rw [h] <;> exact nofun

theorem execDrw_ne_refused (x y : Reg) (n : Count) (s : State) (r : Refusal) : execDrw x y n s ≠ .refused r := by
  unfold execDrw
  split <;> exact nofun

/-- R98: no instruction is refused; seven end in a shared operation, which completes or faults, and the others complete
in every state. -/
theorem exec_ne_refused (i : Instr) (s : State) (r : Refusal) : exec i s ≠ .refused r := by
  cases i with
  | ret => exact popReturn_ne_refused s r
  | drw x y n => exact execDrw_ne_refused x y n s r
  | skp x => exact withKey_ne_refused s _ _ r
  | sknp x => exact withKey_ne_refused s _ (fun down => s.skipIf !down) r
  | ldB x | stRegs x => exact storeBytes_ne_refused s _ _ r
  | ldRegs x => exact loadRegs_ne_refused s _ _ r
  | _ => exact nofun

/-- A word, recognised or not, is not refused. -/
theorem execWord_ne_refused (w : Word) (s : State) (r : Refusal) : execWord w s ≠ .refused r := by
  cases hd : decodeWord w with
  | ok i => rw [execWord_ok hd]; exact exec_ne_refused i s r
  | error e => rw [execWord_error hd]; exact nofun

/-- Settles O19: a tick answers the latched fault, the scan's next state, the fetch fault, or what its word answers. -/
theorem noInstructionIsRefused : Obligations.NoInstructionIsRefused := by
  refine ⟨exec_ne_refused, fun s r => ?_⟩
  rcases step_cases s with ⟨f, -, hs⟩ | ⟨-, -, hs⟩ | ⟨-, -, -, hs⟩ | ⟨-, -, -, hs⟩ <;> rw [hs]
  · exact nofun
  · exact nofun
  · exact nofun
  · exact execWord_ne_refused _ _ r

end Sys2Proof.Machine
end

section
/-! PROOFS. The tick in its four courses, as equations of `step` (spec/40_tick_cycle.md R120, R126, R132), and the
elements that only the executed instruction can move. -/

namespace Sys2Proof.Machine

/-! ### The courses of a tick -/

/-- R132: a machine with a latched fault answers it. -/
theorem step_latchFault (s : State) (f : Fault) : step (s.latchFault f) = .fault f := rfl

/-- R122: a waiting tick latches the inputs and scans the keys. -/
theorem step_waiting {s : State} (hf : s.fault = none) (hw : s.waiting = true) : step s = .next s.latch.scanKeys := by
  simp [step, tick, hf, hw]

/-- A waiting tick that completes is the scan. -/
theorem step_waiting_next {s t : State} (h : step s = .next t) (hw : s.waiting = true) : t = s.latch.scanKeys := by
  obtain ⟨-, ⟨-, ht⟩ | ⟨hw', -⟩⟩ := step_next h
  · exact ht
  · simp [hw] at hw'

/-- R126 to R128: any other tick with PC in range executes the word at PC. -/
theorem step_execWord {s : State} (hf : s.fault = none) (hw : s.waiting = false) (hpc : s.pc.toNat ≤ 0xFFE) :
    step s = execWord s.wordAtPc s.atExecute := by
  rcases step_cases s with ⟨f, hf', -⟩ | ⟨-, hw', -⟩ | ⟨-, -, hpc', -⟩ | ⟨-, -, -, hs⟩
  · simp [hf] at hf'
  · simp [hw] at hw'
  · omega
  · exact hs

/-- Settles O17: the first of the ticks is the latched fault already. -/
theorem latchedFaultIsSticky : Obligations.LatchedFaultIsSticky := by
  intro s f n
  have hstep : Sys2Proof.core.step (s.latchFault f) = .fault f := step_latchFault s f
  simp only [Host.Core.run, hstep]

/-- Settles O7: of the four courses of a tick only the fetch fault has PC at 0xFFF or beyond. -/
theorem fetchBeyondMemoryFaults : Obligations.FetchBeyondMemoryFaults := by
  intro s hf hw hpc
  rcases step_cases s with ⟨f, hf', -⟩ | ⟨-, hw', -⟩ | ⟨-, -, -, hs⟩ | ⟨-, -, hpc', -⟩
  · simp [hf] at hf'
  · simp [hw] at hw'
  · exact hs
  · omega

/-- Settles O5: the tick executes the word at PC, and that word selects the row of `i`. -/
theorem stepRunsTheDecodedInstruction : Obligations.StepRunsTheDecodedInstruction := by
  rintro s i ⟨hf, hw, hpc, hdecode⟩
  rw [step_execWord hf hw hpc, execWord_ok hdecode]

/-! ### What only the executed instruction can move -/

/-- A non-waiting tick keeps what Execute found of an element, unless it executes a writer of that element (R39). -/
theorem step_keeps_atExecute {s t : State} {p : Part} (h : step s = .next t) (hw : s.waiting = false)
    (hno : ∀ i, s.Executes i → p ∉ writesPart i) : Keeps s.atExecute t p := by
  rcases step_next_cases h with ⟨hw', -⟩ | ⟨i, hi, hx⟩ | ⟨-, -, rfl⟩
  · simp [hw] at hw'
  · exact (exec_frame hx).1 p (hno i hi)
  · cases p <;> simp [Keeps]

/-- The writers of CHANGED (R223). -/
theorem changed_mem_writesPart {i : Instr} (h : Part.changed ∈ writesPart i) : i = .cls ∨ ∃ x y n, i = .drw x y n := by
  cases i <;> simp_all [writesPart]

/-- The writer of DT besides the countdown (R244). -/
theorem dt_mem_writesPart {i : Instr} (h : Part.dt ∈ writesPart i) : ∃ x, i = .ldDtVx x := by
  cases i <;> simp_all [writesPart]

/-- The writer of ST besides the countdown (R245). -/
theorem st_mem_writesPart {i : Instr} (h : Part.st ∈ writesPart i) : ∃ x, i = .ldStVx x := by
  cases i <;> simp_all [writesPart]

/-- The instruction that begins a key wait (R243). -/
theorem waiting_mem_writesPart {i : Instr} (h : Part.waiting ∈ writesPart i) : ∃ x, i = .ldVxK x := by
  cases i <;> simp_all [writesPart]

/-- The writers of PC besides the default advance (R24). -/
theorem pc_mem_writesPart {i : Instr} (h : Part.pc ∈ writesPart i) : isJump i = true ∨ isSkip i = true := by
  cases i <;> simp_all [writesPart, isJump, isSkip]

/-! ### Timers -/

theorem atExecute_dt_toNat (s : State) : s.atExecute.dt.toNat = s.dt.toNat - 1 := countdown_toNat s.dt

theorem atExecute_st_toNat (s : State) : s.atExecute.st.toNat = s.st.toNat - 1 := countdown_toNat s.st

/-- R125: a non-waiting tick without Fx15 counts DT down once. -/
theorem step_dt_toNat {s t : State} (h : step s = .next t) (hw : s.waiting = false)
    (hno : ∀ x, ¬ s.Executes (.ldDtVx x)) : t.dt.toNat = s.dt.toNat - 1 := by
  have hkept : t.dt = s.atExecute.dt := step_keeps_atExecute (p := .dt) h hw fun i hi hmem => by
    obtain ⟨x, rfl⟩ := dt_mem_writesPart hmem
    exact hno x hi
  rw [hkept, atExecute_dt_toNat]

/-- R125: a non-waiting tick without Fx18 counts ST down once. -/
theorem step_st_toNat {s t : State} (h : step s = .next t) (hw : s.waiting = false)
    (hno : ∀ x, ¬ s.Executes (.ldStVx x)) : t.st.toNat = s.st.toNat - 1 := by
  have hkept : t.st = s.atExecute.st := step_keeps_atExecute (p := .st) h hw fun i hi hmem => by
    obtain ⟨x, rfl⟩ := st_mem_writesPart hmem
    exact hno x hi
  rw [hkept, atExecute_st_toNat]

/-- Settles O13: the scan moves no timer; on any other tick Execute finds both counted down, and Fx15, Fx18 and Fx07 work
on what it finds. -/
theorem timersCountDownOncePerExecutedTick : Obligations.TimersCountDownOncePerExecutedTick := by
  intro s t h
  refine ⟨fun hw => ?_, fun hw => ⟨step_dt_toNat h hw, step_st_toNat h hw, fun x hi => ?_, fun x hi => ?_, fun x hi => ?_⟩⟩
  · rw [step_waiting_next h hw]
    simp
  · cases step_executes_next hi h; rfl
  · cases step_executes_next hi h; rfl
  · cases step_executes_next hi h
    rw [getV_setV_same, atExecute_dt_toNat]

/-! ### PC -/

/-- An instruction that writes PC is a jump, or it is a skip and leaves PC in place or one word further (R130). -/
theorem exec_pc_jump_or_skip {i : Instr} {s t : State} (h : exec i s = .next t) (hp : t.pc ≠ s.pc) :
    isJump i = true ∨ (isSkip i = true ∧ t.pc = s.pc + 2) := by
  have hmem : Part.pc ∈ writesPart i := by_contra fun hno => hp ((exec_frame h).1 .pc hno)
  refine (pc_mem_writesPart hmem).imp_right fun hskip => ⟨hskip, ?_⟩
  obtain ⟨c, rfl⟩ := exec_skip_next hskip h
  exact (skipIf_pc_cases s c).resolve_left hp

/-- R127, R130: where a non-waiting tick leaves PC, jumps apart. -/
theorem step_pc_cases {s t : State} (h : step s = .next t) (hw : s.waiting = false) : t.pc = s.pc + 2 ∨
    ∃ i, s.Executes i ∧ (isJump i = true ∨ (isSkip i = true ∧ t.pc = s.pc + 2 + 2)) := by
  rcases step_next_cases h with ⟨hw', -⟩ | ⟨i, hi, hx⟩ | ⟨-, -, rfl⟩
  · simp [hw] at hw'
  · exact or_iff_not_imp_left.mpr fun hp => ⟨i, hi, exec_pc_jump_or_skip hx hp⟩
  · exact .inl rfl

/-- R157, D11: Bnnn's sum of a byte and a 12-bit number fits 16 bits. -/
theorem zext16Byte_add_zext16_toNat (b : Byte) (nnn : Imm12) :
    (zext16Byte b + zext16 nnn).toNat = b.toNat + nnn.toNat := by
  have := b.isLt
  have := nnn.isLt
  rw [BitVec.toNat_add, zext16Byte_toNat, zext16_toNat]
  omega

/-- Settles O30: Execute finds PC past the word, and each of the four jumps overwrites it with its own target. -/
theorem pcAdvancesBeforeTheInstruction : Obligations.PcAdvancesBeforeTheInstruction := by
  intro s t h
  refine ⟨step_pc_cases h, fun nnn hsp hi => ?_, fun nnn hi => ?_, fun nnn hi => ?_, fun hsp hi => ?_, fun hw => ?_⟩
  · cases step_executes_next hi h
    exact (pushReturn_slot s.atExecute (s.pc + 2) ⟨s.sp, hsp⟩).trans (if_pos rfl)
  · rcases hi with hi | hi <;> cases step_executes_next hi h <;> exact zext16_toNat nnn
  · cases step_executes_next hi h
    exact zext16Byte_add_zext16_toNat (s.getV 0) nnn
  · obtain ⟨-, rfl⟩ := exec_ret_next (step_executes_next hi h)
    rfl
  · rw [step_waiting_next h hw]
    simp

end Sys2Proof.Machine
end

section
/-! PROOFS. The latch and the key wait (spec/40_tick_cycle.md R121 to R124; spec/92_eei_decisions.md D1): what the scan
does for every vector of keys, one waiting tick, and a wait of any length. -/

namespace Sys2Proof.Machine

/-! ### The scan -/

/-- R124: with no key pressed the scan changes nothing. -/
theorem scanKeys_of_no_key {s : State} (hnone : ∀ k : Fin 16, s.keys[k] = false) : s.scanKeys = s := by
  rcases scanKeys_cases s with ⟨-, hs⟩ | ⟨k, hk, -⟩
  · exact hs
  · rw [hnone k] at hk; cases hk

/-- R122: the lowest pressed key is what V[WAIT_REG] holds after the scan. -/
theorem scanKeys_latches_lowest {s : State} {k : Fin 16} (hk : s.keys[k] = true)
    (hlow : ∀ j : Fin 16, j < k → s.keys[j] = false) : (s.scanKeys.getV s.waitReg).toNat = k.val := by
  rcases scanKeys_cases s with ⟨hnone, -⟩ | ⟨m, hm, hmlow, hs⟩
  · rw [hnone k] at hk; cases hk
  · obtain rfl : m = k := by
      refine le_antisymm (le_of_not_gt fun hlt => ?_) (le_of_not_gt fun hlt => ?_)
      · rw [hmlow k hlt] at hk; cases hk
      · rw [hlow m hlt] at hm; cases hm
    have hreg : s.scanKeys.getV s.waitReg = BitVec.ofNat 8 m := by
      rw [hs]
      exact getV_setV_same ..
    rw [hreg, BitVec.toNat_ofNat]
    omega

/-- R122: the scan changes no register but V[WAIT_REG]. -/
theorem scanKeys_getV_other (s : State) {x : Reg} (hx : x ≠ s.waitReg) : s.scanKeys.getV x = s.getV x :=
  (scanKeys_frame s).2.1 x (by simpa using hx)

/-- R123: the scan ends a wait exactly when KEYWAIT_EXITS is true and a key is pressed. -/
theorem scanKeys_ends_wait_iff {s : State} (hw : s.waiting = true) :
    s.scanKeys.waiting = false ↔ s.cfg.keywaitExits = true ∧ ∃ k : Fin 16, s.keys[k] = true := by
  rcases scanKeys_cases s with ⟨hnone, hs⟩ | ⟨k, hk, -, hs⟩ <;> rw [hs]
  · simp [hw, hnone]
  · simpa using fun _ => ⟨k, hk⟩

/-- D1: where KEYWAIT_EXITS is false the scan never ends a wait. -/
theorem scanKeys_keeps_waiting {s : State} (hw : s.waiting = true) (hexits : s.cfg.keywaitExits = false) :
    s.scanKeys.waiting = true := by
  simpa [hexits] using (scanKeys_ends_wait_iff hw).not

/-! ### One tick -/

/-- Settles O9: the scan of a vector with no key is no change, so the tick is the latch. -/
theorem waitingTickWithoutAKeyChangesNothing : Obligations.WaitingTickWithoutAKeyChangesNothing := by
  intro s hf hw hnone
  have hstep : step s = .next s.latch := by
    rw [step_waiting hf hw, scanKeys_of_no_key (s := s.latch) hnone]
  exact ⟨s.latch, hstep, by simp [hf, hw, State.outputs, State.beep]⟩

/-- Settles O10: the register clauses are the scan's, and neither the latch nor the scan writes any of the rest. -/
theorem waitingTickLatchesTheLowestKey : Obligations.WaitingTickLatchesTheLowestKey := by
  intro s hf hw
  refine ⟨s.latch.scanKeys, step_waiting hf hw, fun k hk hlow => ?_, fun hnone => ?_, fun x hx => ?_, by simp [hf]⟩
  · exact scanKeys_latches_lowest (s := s.latch) hk hlow
  · rw [scanKeys_of_no_key (s := s.latch) hnone, latch_getV]
  · exact scanKeys_getV_other s.latch hx

/-- Settles O11: outside a wait only Fx0A writes WAITING, and inside one only the scan does. -/
theorem waitBeginsWithFx0AAndEndsByTheParameter : Obligations.WaitBeginsWithFx0AAndEndsByTheParameter := by
  intro s t h
  refine ⟨fun hw ht => ?_, fun _ ⟨x, hi⟩ => ?_, fun hw => ?_⟩
  · by_contra hno
    have hkept : t.waiting = s.waiting := step_keeps_atExecute (p := .waiting) h hw fun i hi hmem => by
      obtain ⟨x, rfl⟩ := waiting_mem_writesPart hmem
      cases step_executes_next hi h
      exact hno ⟨x, hi, rfl⟩
    simp [hkept, hw] at ht
  · cases step_executes_next hi h; rfl
  · rw [step_waiting_next h hw]
    exact scanKeys_ends_wait_iff (s := s.latch) hw

/-- R121, R223: a tick that executes no display instruction ends with CHANGED 0. -/
theorem step_changed_false {s t : State} (h : step s = .next t)
    (hno : ∀ i, s.Executes i → i ≠ .cls ∧ ∀ x y n, i ≠ .drw x y n) : t.changed = false := by
  cases hw : s.waiting with
  | true =>
    rw [step_waiting_next h hw]
    simp
  | false =>
    refine step_keeps_atExecute (p := .changed) h hw fun i hi hmem => ?_
    obtain ⟨hcls, hdrw⟩ := hno i hi
    rcases changed_mem_writesPart hmem with rfl | ⟨x, y, n, rfl⟩
    · exact hcls rfl
    · exact hdrw x y n rfl

/-- A key skip that completes on a key number in range tests the latched vector (R240, R241). -/
theorem withKey_skipIf_pc {s t : State} {b : Byte} {f : Bool → Bool} (hb : b.toNat < 16)
    (h : s.withKey b (fun down => s.skipIf (f down)) = .next t) :
    t.pc = if f s.keys[b.toNat] then s.pc + 2 else s.pc := by
  rw [withKey_in s hb] at h
  cases h
  simp

/-- Settles O8: Execute and the scan both start from the state the latch leaves. -/
theorem everyTickLatchesKeysBeforeTheyAreRead : Obligations.EveryTickLatchesKeysBeforeTheyAreRead := by
  refine ⟨fun s t h => ⟨?_, step_changed_false h⟩, fun s t k h hw hk hlow => ?_,
    fun s t x hx h => ⟨fun hi => ?_, fun hi => ?_⟩⟩
  · exact (step_next_keeps_latched h).1
  · rw [step_waiting_next h hw]
    exact scanKeys_latches_lowest (s := s.latch) hk hlow
  · exact withKey_skipIf_pc (s := s.atExecute) (f := fun down => down) hx (step_executes_next hi h)
  · have hpc : t.pc = if !s.input.keys[(s.getV x).toNat] then s.pc + 2 + 2 else s.pc + 2 :=
      withKey_skipIf_pc (s := s.atExecute) (f := fun down => !down) hx (step_executes_next hi h)
    cases hdown : s.input.keys[(s.getV x).toNat] <;> simpa [hdown] using hpc

/-! ### A wait of any length -/

/-- What a wait that does not end leaves as it was: every element but KEYS and CHANGED, every register but V[WAIT_REG],
and the parameters. -/
structure WaitFrozen (s t : State) : Prop where
  part  : ∀ p, p ≠ .changed → Keeps s t p
  reg   : ∀ x, x ≠ s.waitReg → t.getV x = s.getV x
  fault : t.fault = s.fault
  cfg   : t.cfg = s.cfg

theorem WaitFrozen.refl (s : State) : WaitFrozen s s :=
  ⟨fun p _ => by cases p <;> simp [Keeps], fun _ _ => rfl, rfl, rfl⟩

theorem WaitFrozen.trans {s t u : State} (h : WaitFrozen s t) (g : WaitFrozen t u) : WaitFrozen s u := by
  have hreg : t.waitReg = s.waitReg := h.part .waitReg nofun
  refine ⟨fun p hp => ?_, fun x hx => (g.reg x (hreg ▸ hx)).trans (h.reg x hx), g.fault.trans h.fault, g.cfg.trans h.cfg⟩
  have hst := h.part p hp
  have htu := g.part p hp
  cases p <;> simp_all [Keeps]

/-- D1: a waiting tick of this hardware freezes all that a wait freezes. -/
theorem waitFrozen_scan {s : State} (hw : s.waiting = true) (hexits : s.cfg.keywaitExits = false) :
    WaitFrozen s s.latch.scanKeys where
  part p hp := by
    by_cases hwait : p = .waiting
    · subst hwait
      exact (scanKeys_keeps_waiting (s := s.latch) hw hexits).trans hw.symm
    · cases p <;> simp_all [Keeps]
  reg x hx := (scanKeys_getV_other s.latch hx).trans (latch_getV s x)
  fault := by simp
  cfg := by simp

/-- D1: on this hardware a wait runs for any number of ticks, all frozen, with CHANGED 0 after the first. -/
theorem blocked_runs_frozen (n : Nat) {s : State} (hs : s.Blocked) (hexits : s.cfg.keywaitExits = false) :
    ∃ t, RunsTo n s t ∧ WaitFrozen s t ∧ ((0 < n ∨ s.changed = false) → t.changed = false) := by
  induction n generalizing s with
  | zero => exact ⟨s, runsTo_zero.mpr rfl, .refl s, fun h => h.resolve_left (Nat.lt_irrefl 0)⟩
  | succ n ih =>
    obtain ⟨hf, hw⟩ := hs
    have hscan := waitFrozen_scan hw hexits
    have hblocked : s.latch.scanKeys.Blocked := ⟨hscan.fault.trans hf, (hscan.part .waiting nofun).trans hw⟩
    obtain ⟨t, hrun, hfrozen, hchanged⟩ := ih hblocked (by rw [hscan.cfg, hexits])
    exact ⟨t, runsTo_succ.mpr ⟨_, step_waiting hf hw, hrun⟩, hscan.trans hfrozen, fun _ => hchanged (.inr (by simp))⟩

/-- Settles O12, by `blocked_runs_frozen`, the induction on the number of ticks. -/
theorem waitNeverEndsOnThisHardware : Obligations.WaitNeverEndsOnThisHardware := by
  rintro n s ⟨hf, hw⟩ hexits
  obtain ⟨t, hrun, ⟨hpart, hreg, hfault, -⟩, hchanged⟩ := blocked_runs_frozen n ⟨hf, hw⟩ hexits
  have hst : t.st = s.st := hpart .st nofun
  exact ⟨t, hrun, ⟨hfault.trans hf, (hpart .waiting nofun).trans hw⟩, hpart .pc nofun, hpart .i nofun, hpart .sp nofun,
    hpart .stack nofun, hpart .mem nofun, hpart .display nofun, hpart .dt nofun, hst,
    by simp [State.outputs, State.beep, hst], fun hn => hchanged (.inl hn), hreg, hpart .waitReg nofun⟩

end Sys2Proof.Machine
end

section
/-! PROOFS. The debug flag is never observed (spec/40_tick_cycle.md R131; spec/92_eei_decisions.md D19): after the latch
nothing reads the queue of inputs, so a tick commutes with replacing it, and the latch reads keys and random byte only. -/

namespace Sys2Proof.Machine

/-! ### No operation reads the queue of inputs -/

/-- The state with another queue of inputs. -/
def State.withInputs (s : State) (ins : List TickInput) : State := { s with inputs := ins }

theorem withInputs_skipIf (s : State) (ins : List TickInput) (c : Bool) :
    (s.withInputs ins).skipIf c = (s.skipIf c).withInputs ins := by
  cases c <;> rfl

theorem withInputs_pushReturn (s : State) (ins : List TickInput) (w : Word) :
    (s.withInputs ins).pushReturn w = (s.pushReturn w).withInputs ins := by
  by_cases h : s.sp < 16 <;> simp [State.pushReturn, State.withInputs, h]

theorem withInputs_storeBytes {s t : State} {a : Nat} {ws : List Byte} (ins : List TickInput)
    (h : s.storeBytes a ws = .next t) : (s.withInputs ins).storeBytes a ws = .next (t.withInputs ins) := by
  induction ws generalizing s a with
  | nil => cases h; rfl
  | cons w ws ih =>
    unfold State.storeBytes at h ⊢
    by_cases ha : a < 4096
    · rw [if_pos ha] at h ⊢
      exact ih h
    · rw [if_neg ha] at h
      cases h

theorem withInputs_loadRegs {s t : State} {a : Nat} {ks : List Reg} (ins : List TickInput)
    (h : s.loadRegs a ks = .next t) : (s.withInputs ins).loadRegs a ks = .next (t.withInputs ins) := by
  induction ks generalizing s a with
  | nil => cases h; rfl
  | cons k ks ih =>
    unfold State.loadRegs at h ⊢
    by_cases ha : a < 4096
    · rw [if_pos ha] at h ⊢
      exact ih h
    · rw [if_neg ha] at h
      cases h

theorem withInputs_withKey {s t : State} {b : Byte} {f : Bool → Bool} (ins : List TickInput)
    (h : s.withKey b (fun down => s.skipIf (f down)) = .next t) :
    (s.withInputs ins).withKey b (fun down => (s.withInputs ins).skipIf (f down)) = .next (t.withInputs ins) := by
  by_cases hb : b.toNat < 16
  · rw [withKey_in _ hb] at h ⊢
    cases h
    exact congrArg _ (withInputs_skipIf ..)
  · rw [withKey_out s (by omega)] at h
    cases h

theorem withInputs_execDrw {s t : State} {x y : Reg} {n : Count} (ins : List TickInput) (h : execDrw x y n s = .next t) :
    execDrw x y n (s.withInputs ins) = .next (t.withInputs ins) := by
  have hread : (s.withInputs ins).readBytes (s.effAddr 0) n = s.readBytes (s.effAddr 0) n := by
    rw [readBytes_eq, readBytes_eq]
    rfl
  unfold execDrw at h ⊢
  rw [show (s.withInputs ins).effAddr 0 = s.effAddr 0 from rfl, hread]
  split at h <;> cases h
  rfl

theorem withInputs_ret {s t : State} (ins : List TickInput) (h : exec .ret s = .next t) :
    exec .ret (s.withInputs ins) = .next (t.withInputs ins) := by
  obtain ⟨hsp, rfl⟩ := exec_ret_next h
  rcases popReturn_cases (s.withInputs ins) with ⟨hsp', -⟩ | ⟨_, hs⟩ | ⟨hsp', -⟩
  · change s.sp = 0 at hsp'
    omega
  · exact hs
  · change 16 < s.sp at hsp'
    omega

/-- No instruction reads the queue of inputs. -/
theorem exec_withInputs {i : Instr} {s t : State} (ins : List TickInput) (h : exec i s = .next t) :
    exec i (s.withInputs ins) = .next (t.withInputs ins) := by
  cases i with
  | ret => exact withInputs_ret ins h
  | call nnn =>
    cases h
    exact congrArg (fun u : State => Host.Outcome.next (u.jump (zext16 nnn))) (withInputs_pushReturn s ins s.pc)
  | seImm | sneImm | seReg | sneReg => cases h; exact congrArg _ (withInputs_skipIf ..)
  | skp x => exact withInputs_withKey (f := fun down => down) ins h
  | sknp x => exact withInputs_withKey (f := fun down => !down) ins h
  | drw x y n => exact withInputs_execDrw ins h
  | ldB x | stRegs x => exact withInputs_storeBytes ins h
  | ldRegs x => exact withInputs_loadRegs ins h
  | _ => cases h; rfl

/-- No word, recognised or not, reads the queue of inputs. -/
theorem execWord_withInputs {w : Word} {s t : State} (ins : List TickInput) (h : execWord w s = .next t) :
    execWord w (s.withInputs ins) = .next (t.withInputs ins) := by
  rcases execWord_next h with ⟨i, hd, hx⟩ | ⟨⟨r, hr⟩, rfl⟩
  · rw [execWord_ok hd]
    exact exec_withInputs ins hx
  · exact execWord_error hr _

/-- The scan does not read the queue of inputs. -/
theorem scanKeys_withInputs (s : State) (ins : List TickInput) :
    (s.withInputs ins).scanKeys = s.scanKeys.withInputs ins := by
  unfold State.scanKeys
  rw [show (s.withInputs ins).lowestKey = s.lowestKey from rfl]
  cases s.lowestKey <;> rfl

/-! ### What the latch reads of the queue -/

/-- What the machine can see of a queue of inputs: the keys and the random byte of each, not the debug flag. -/
def withoutDebug (ins : List TickInput) : List (Vector Bool 16 × Byte) := ins.map fun a => (a.keys, a.rnd)

theorem withoutDebug_tail (ins : List TickInput) : withoutDebug ins.tail = (withoutDebug ins).tail := List.map_tail

/-- Queues that look alike give the coming tick the same keys and random byte. -/
theorem input_withInputs {s : State} {ins : List TickInput} (h : withoutDebug ins = withoutDebug s.inputs) :
    (s.withInputs ins).input.keys = s.input.keys ∧ (s.withInputs ins).input.rnd = s.input.rnd := by
  unfold State.input
  rw [show (s.withInputs ins).inputs = ins from rfl]
  cases hins : s.inputs <;> cases ins <;> simp_all [withoutDebug, State.withInputs]

/-- Queues that look alike are latched alike. -/
theorem latch_withInputs {s : State} {ins : List TickInput} (h : withoutDebug ins = withoutDebug s.inputs) :
    (s.withInputs ins).latch = s.latch.withInputs ins.tail := by
  obtain ⟨hkeys, hrnd⟩ := input_withInputs h
  unfold State.latch
  rw [hkeys, hrnd]
  rfl

/-! ### A tick and a run -/

/-- D19: a tick runs alike on queues that look alike. -/
theorem step_withInputs {s t : State} {ins : List TickInput} (h : withoutDebug ins = withoutDebug s.inputs)
    (hstep : step s = .next t) :
    step (s.withInputs ins) = .next (t.withInputs ins.tail) := by
  obtain ⟨hf, ⟨hw, rfl⟩ | ⟨hw, hpc, hx⟩⟩ := step_next hstep
  · rw [step_waiting (s := s.withInputs ins) hf hw, latch_withInputs h, scanKeys_withInputs]
  · have hrun := execWord_withInputs ins.tail hx
    rw [step_execWord (s := s.withInputs ins) hf hw (Nat.le_of_lt_succ hpc)]
    change execWord s.wordAtPc (s.withInputs ins).latch.countTimers.advance = _
    rw [latch_withInputs h]
    exact hrun

/-- D19, log 5: a run of any length goes alike on queues that look alike, and leaves queues that look alike. -/
theorem runsTo_withInputs {n : Nat} {s t : State} {ins : List TickInput} (h : withoutDebug ins = withoutDebug s.inputs)
    (hrun : RunsTo n s t) :
    ∃ rest, withoutDebug rest = withoutDebug t.inputs ∧ RunsTo n (s.withInputs ins) (t.withInputs rest) := by
  induction n generalizing s ins with
  | zero =>
    obtain rfl := runsTo_zero.mp hrun
    exact ⟨ins, h, runsTo_zero.mpr rfl⟩
  | succ n ih =>
    obtain ⟨u, hstep, hrun⟩ := runsTo_succ.mp hrun
    obtain ⟨-, -, -, hinputs, -⟩ := step_next_keeps_latched hstep
    obtain ⟨rest, hrest, hrun'⟩ := ih (ins := ins.tail) (by rw [hinputs, withoutDebug_tail, withoutDebug_tail, h]) hrun
    exact ⟨rest, hrest, runsTo_succ.mpr ⟨_, step_withInputs h hstep, hrun'⟩⟩

/-- Settles O16, by `runsTo_withInputs`, the induction on the number of ticks. -/
theorem debugInputIsNeverObserved : Obligations.DebugInputIsNeverObserved :=
  fun _ _ _ _ hins hrun => runsTo_withInputs hins hrun

end Sys2Proof.Machine
end

section
/-! PROOFS. Control flow (spec/41_control_flow.md R150 to R158; spec/92_eei_decisions.md D2, D3, D11): what the jumps, the
call, the return and the register skips do in every state, and that a return comes back to its call. -/

namespace Sys2Proof.Machine

/-! ### A return meets its call -/

/-- A tick leaves every slot below SP as it was: a call writes the slot SP, a return writes none (R150, R152). -/
theorem step_keeps_slot_below_sp {s t : State} (h : step s = .next t) {d : Fin 16} (hd : d.val < s.sp) :
    t.stack[d] = s.stack[d] := by
  rcases stackMovesOnlyByCallAndReturn s t h with ⟨-, hstack⟩ | ⟨-, -, hother⟩ | ⟨-, -, hstack⟩
  · rw [hstack]
  · exact hother d (Nat.ne_of_lt hd)
  · rw [hstack]

/-- A run in which SP never falls to `d` leaves slot `d` as it was. -/
theorem runsTo_keeps_slot_below_sp {n : Nat} {t u : State} {d : Fin 16}
    (hsp : ∀ k v, k ≤ n → RunsTo k t v → d.val < v.sp) (hrun : RunsTo n t u) : u.stack[d] = t.stack[d] := by
  induction n generalizing t with
  | zero => rw [runsTo_zero.mp hrun]
  | succ n ih =>
    obtain ⟨w, hstep, hrest⟩ := runsTo_succ.mp hrun
    have hw : ∀ k v, k ≤ n → RunsTo k w v → d.val < v.sp := fun k v hk hv =>
      hsp (k + 1) v (Nat.succ_le_succ hk) (runsTo_succ.mpr ⟨w, hstep, hv⟩)
    exact (ih hw hrest).trans (step_keeps_slot_below_sp hstep (hsp 0 t (Nat.zero_le _) (runsTo_zero.mpr rfl)))

/-- R150: with SP from 1 to 16 a return takes the slot below SP and goes there. -/
theorem exec_ret_of_sp (s : State) (h : 1 ≤ s.sp ∧ s.sp ≤ 16) :
    exec .ret s = .next { s with sp := s.sp - 1, pc := s.stack[s.sp - 1]'(by omega) } := by
  rcases popReturn_cases s with ⟨h0, -⟩ | ⟨_, hpop⟩ | ⟨h16, -⟩
  · omega
  · exact hpop
  · omega

/-- Settles O36: the call stores its return address in slot d, the run keeps that slot since SP stays above d, and the
return at depth d + 1 takes it. -/
theorem callAndReturnPair : Obligations.CallAndReturnPair := by
  intro s t u nnn n hsp hcall hstep habove hrun husp hret
  let d : Fin 16 := ⟨s.sp, hsp⟩
  have hpushed : t.stack[d] = s.pc + 2 := by
    obtain ⟨-, hslot, -⟩ := pcAdvancesBeforeTheInstruction s t hstep
    exact hslot nnn hsp hcall
  have hkept : u.stack[d] = t.stack[d] := runsTo_keeps_slot_below_sp habove hrun
  have hpop : step u = exec .ret u.atExecute := stepRunsTheDecodedInstruction u .ret hret
  rw [exec_ret_of_sp u.atExecute ⟨husp ▸ Nat.succ_pos _, husp ▸ hsp⟩] at hpop
  have hdepth : u.sp - 1 = s.sp := by omega
  refine ⟨_, hpop, ?_, hdepth⟩
  calc u.stack[u.sp - 1]'(by omega)
    _ = u.stack[d] := by simp [hdepth, d]
    _ = s.pc + 2 := hkept.trans hpushed

/-! ### The return alone -/

/-- Settles O33, the three ranges of SP. -/
theorem returnPopsOrFaults : Obligations.ReturnPopsOrFaults := by
  refine ⟨fun s h => ?_, fun s h => ?_, fun s h => ?_⟩
  · have hpop := exec_ret_of_sp s h
    exact ⟨_, hpop, rfl, rfl, exec_frame hpop⟩
  · rcases popReturn_cases s with ⟨-, hfault⟩ | ⟨hsp, -⟩ | ⟨hsp, -⟩
    · exact hfault
    · omega
    · omega
  · rcases popReturn_cases s with ⟨hsp, -⟩ | ⟨hsp, -⟩ | ⟨-, hfault⟩
    · omega
    · omega
    · exact hfault

/-! ### Jumps and the call -/

/-- Settles O31: the target is `nnn` zero-extended. -/
theorem jumpSetsThePc : Obligations.JumpSetsThePc := fun s nnn =>
  ⟨s.jump (zext16 nnn), rfl, zext16_toNat nnn, exec_frame (i := .jp nnn) rfl⟩

/-- Settles O32: the push is `State.pushReturn` of PC as Execute finds it. -/
theorem callPushesIfRoomAndCounts : Obligations.CallPushesIfRoomAndCounts := fun s nnn =>
  ⟨(s.pushReturn s.pc).jump (zext16 nnn), rfl, zext16_toNat nnn, pushReturn_sp s s.pc, pushReturn_slot s s.pc,
    exec_frame (i := .call nnn) rfl⟩

/-- Settles O35: V[0] and `nnn` add up within 16 bits. -/
theorem jumpPlusV0IsNotMasked : Obligations.JumpPlusV0IsNotMasked := fun s nnn =>
  ⟨s.jump (zext16Byte (s.getV 0) + zext16 nnn), rfl, zext16Byte_add_zext16_toNat (s.getV 0) nnn,
    exec_frame (i := .jpV0 nnn) rfl⟩

/-! ### The register skips -/

/-- R153, R155: where a skip on equality leaves PC. -/
theorem skipIf_beq_pc (s : State) (a b : Byte) :
    (s.skipIf (a == b)).pc = if a.toNat = b.toNat then s.pc + 2 else s.pc := by
  simp [BitVec.toNat_inj]

/-- R154, R156: where a skip on difference leaves PC. -/
theorem skipIf_bne_pc (s : State) (a b : Byte) :
    (s.skipIf (a != b)).pc = if a.toNat = b.toNat then s.pc else s.pc + 2 := by
  simp [BitVec.toNat_inj]

/-- Settles O34: each of the four skips is `State.skipIf` on its comparison. -/
theorem skipsAddTwoWhenTheirConditionHolds : Obligations.SkipsAddTwoWhenTheirConditionHolds := fun s x y kk =>
  ⟨⟨_, rfl, skipIf_beq_pc s (s.getV x) kk, frame_skipIf s _⟩,
    ⟨_, rfl, skipIf_bne_pc s (s.getV x) kk, frame_skipIf s _⟩,
    ⟨_, rfl, skipIf_beq_pc s (s.getV x) (s.getV y), frame_skipIf s _⟩,
    ⟨_, rfl, skipIf_bne_pc s (s.getV x) (s.getV y), frame_skipIf s _⟩⟩

end Sys2Proof.Machine
end

section
/-! PROOFS. Register loads and arithmetic (spec/42_load_alu.md R170 to R183; spec/92_eei_decisions.md D7, D13): what each
row leaves in V[x] and in VF, in every state. -/

namespace Sys2Proof.Machine

/-! ### The results as numbers, R182 -/

theorem byte_sub_toNat (a b : Byte) : (a - b).toNat = (a.toNat + 256 - b.toNat) % 256 := by
  have hb : b.toNat < 256 := b.isLt
  rw [BitVec.toNat_sub]
  omega

theorem byte_shiftRight_one_toNat (a : Byte) : (a >>> 1).toNat = a.toNat / 2 := by
  rw [BitVec.toNat_ushiftRight, Nat.shiftRight_eq_div_pow]

theorem byte_shiftLeft_one_toNat (a : Byte) : (a <<< 1).toNat = a.toNat * 2 % 256 := by
  rw [BitVec.toNat_shiftLeft, Nat.shiftLeft_eq]

/-- R181: what is masked by `m` has no bit outside `m`. -/
theorem and_mask_and_not_mask (a m : Byte) : (a &&& m) &&& ~~~m = 0 := by
  rw [BitVec.and_assoc, BitVec.and_not_self]
  exact BitVec.and_zero

/-! ### The flags as numbers, R176 to R180 -/

theorem flagByte_toNat (p : Prop) [Decidable p] : (flagByte (decide p)).toNat = if p then 1 else 0 := by
  by_cases hp : p <;> simp [flagByte, hp]

theorem carryFlag_toNat (a b : Byte) : (carryFlag a b).toNat = if a.toNat + b.toNat > 255 then 1 else 0 :=
  flagByte_toNat _

theorem greaterFlag_toNat (a b : Byte) : (greaterFlag a b).toNat = if a.toNat > b.toNat then 1 else 0 :=
  flagByte_toNat _

theorem lowBitFlag_toNat (a : Byte) : (lowBitFlag a).toNat = a.toNat % 2 := by
  simp [lowBitFlag, Nat.and_one_is_mod]

theorem highBitFlag_toNat (a : Byte) : (highBitFlag a).toNat = a.toNat / 128 := by
  have ha : a.toNat < 256 := a.isLt
  have hbit : (highBitFlag a).toNat = a.toNat / 128 % 2 := by
    simp [highBitFlag, Nat.and_one_is_mod, Nat.shiftRight_eq_div_pow]
  omega

/-- R183, 8xy6 with x = 15: a flag shifted right is 0. -/
theorem lowBitFlag_shiftRight_one (a : Byte) : lowBitFlag a >>> 1 = 0 := by
  apply BitVec.eq_of_toNat_eq
  rw [byte_shiftRight_one_toNat, lowBitFlag_toNat]
  exact Nat.div_eq_of_lt (Nat.mod_lt _ two_pos)

/-- R183, 8xyE with x = 15: a flag shifted left is twice the flag. -/
theorem highBitFlag_shiftLeft_one_toNat (a : Byte) : (highBitFlag a <<< 1).toNat = 2 * (a.toNat / 128) := by
  have ha : a.toNat < 256 := a.isLt
  rw [byte_shiftLeft_one_toNat, highBitFlag_toNat]
  omega

/-! ### Reading a register after the second statement of a row -/

@[simp] theorem getV_subInto_same (s : State) (x a b : Reg) : (s.subInto x a b).getV x = s.getV a - s.getV b :=
  getV_setV_same s x _

@[simp] theorem getV_subInto_other (s : State) {x y : Reg} (a b : Reg) (h : x ≠ y) :
    (s.subInto x a b).getV y = s.getV y := getV_setV_other s x y _ h

@[simp] theorem getV_modifyV_same (s : State) (x : Reg) (f : Byte → Byte) : (s.modifyV x f).getV x = f (s.getV x) :=
  getV_setV_same s x _

@[simp] theorem getV_modifyV_other (s : State) {x y : Reg} (f : Byte → Byte) (h : x ≠ y) :
    (s.modifyV x f).getV y = s.getV y := getV_setV_other s x y _ h

/-- A frame that names more registers says less. -/
theorem Frame.regs_mono {parts : List Part} {regs regs' : List Reg} {s t : State} (h : Frame parts regs s t)
    (hsub : regs ⊆ regs') : Frame parts regs' s t :=
  ⟨h.1, fun y hy => h.2.1 y fun hmem => hy (hsub hmem), h.2.2⟩

/-- A row of R183 with x = 15 writes register 15 and nothing else. -/
theorem exec_frame_dest_flag {i : Instr} {s t : State} (hparts : writesPart i = []) (hregs : writesV i = [15, 15])
    (h : exec i s = .next t) : Frame [] [15] s t := by
  have hframe : Frame [] [15, 15] s t := hparts ▸ hregs ▸ exec_frame h
  exact hframe.regs_mono (by simp)

/-! ### Addition, subtraction and shifts -/

/-- Settles O40: the carry is written over V[15] last, so it stands there for every x. -/
theorem addRegisterSetsTheCarryLast : Obligations.AddRegisterSetsTheCarryLast := by
  refine fun s x y => ⟨_, rfl, fun hx => ?_, ?_, exec_frame (i := .addReg x y) rfl⟩
  · rw [getV_setVF_other _ _ _ hx, getV_setV_same, BitVec.toNat_add]
  · rw [getV_setVF_same, carryFlag_toNat]

/-- Settles O41: the flag write reaches neither operand. -/
theorem subtractionsSetAStrictComparison : Obligations.SubtractionsSetAStrictComparison := by
  refine fun s x y hx hy =>
    ⟨⟨_, rfl, ?_, ?_, exec_frame (i := .subReg x y) rfl⟩, ⟨_, rfl, ?_, ?_, exec_frame (i := .subnReg x y) rfl⟩⟩
  · rw [getV_subInto_same, getV_setVF_other _ _ _ hx, getV_setVF_other _ _ _ hy, byte_sub_toNat]
  · rw [getV_subInto_other _ _ _ hx, getV_setVF_same, greaterFlag_toNat]
  · rw [getV_subInto_same, getV_setVF_other _ _ _ hx, getV_setVF_other _ _ _ hy, byte_sub_toNat]
  · rw [getV_subInto_other _ _ _ hx, getV_setVF_same, greaterFlag_toNat]

/-- Settles O42: the flag write does not reach V[x]. -/
theorem shiftsKeepTheBitShiftedOut : Obligations.ShiftsKeepTheBitShiftedOut := by
  refine fun s x y hx =>
    ⟨⟨_, rfl, ?_, ?_, exec_frame (i := .shr x y) rfl⟩, ⟨_, rfl, ?_, ?_, exec_frame (i := .shl x y) rfl⟩⟩
  · rw [getV_modifyV_same, getV_setVF_other _ _ _ hx, byte_shiftRight_one_toNat]
  · rw [getV_modifyV_other _ _ hx, getV_setVF_same, lowBitFlag_toNat]
  · rw [getV_modifyV_same, getV_setVF_other _ _ _ hx, byte_shiftLeft_one_toNat]
  · rw [getV_modifyV_other _ _ hx, getV_setVF_same, highBitFlag_toNat]

/-! ### Register 15 as an operand, D7 -/

/-- Settles O43, row by row of R183: an operand numbered 15 reads the flag the first statement wrote, any other the
register on entry. -/
theorem flagRegisterAsOperandIsSequential : Obligations.FlagRegisterAsOperandIsSequential := by
  refine fun s => ⟨fun y hy => ?_, fun x hx => ?_, ?_, fun y hy => ?_, fun x hx => ?_, ?_, fun y => ?_, fun y => ?_⟩
  · refine ⟨_, rfl, ?_, exec_frame_dest_flag (i := .subReg 15 y) rfl rfl rfl⟩
    rw [getV_subInto_same, getV_setVF_same, getV_setVF_other _ _ _ hy, byte_sub_toNat, greaterFlag_toNat]
  · refine ⟨_, _, rfl, rfl, ?_, ?_, exec_frame (i := .subReg x 15) rfl⟩
    · rw [getV_subInto_other _ _ _ hx, getV_setVF_same, greaterFlag_toNat]
    · rw [getV_subInto_same, getV_setVF_same, getV_setVF_other _ _ _ hx, byte_sub_toNat, greaterFlag_toNat]
  · exact ⟨_, rfl, (getV_subInto_same ..).trans (BitVec.sub_self _), exec_frame_dest_flag (i := .subReg 15 15) rfl rfl rfl⟩
  · refine ⟨_, rfl, ?_, exec_frame_dest_flag (i := .subnReg 15 y) rfl rfl rfl⟩
    rw [getV_subInto_same, getV_setVF_same, getV_setVF_other _ _ _ hy, byte_sub_toNat, greaterFlag_toNat]
  · refine ⟨_, _, rfl, rfl, ?_, ?_, exec_frame (i := .subnReg x 15) rfl⟩
    · rw [getV_subInto_other _ _ _ hx, getV_setVF_same, greaterFlag_toNat]
    · rw [getV_subInto_same, getV_setVF_same, getV_setVF_other _ _ _ hx, byte_sub_toNat, greaterFlag_toNat]
  · exact ⟨_, rfl, (getV_subInto_same ..).trans (BitVec.sub_self _), exec_frame_dest_flag (i := .subnReg 15 15) rfl rfl rfl⟩
  · refine ⟨_, rfl, ?_, exec_frame_dest_flag (i := .shr 15 y) rfl rfl rfl⟩
    rw [getV_modifyV_same, getV_setVF_same, lowBitFlag_shiftRight_one]
  · refine ⟨_, rfl, ?_, exec_frame_dest_flag (i := .shl 15 y) rfl rfl rfl⟩
    rw [getV_modifyV_same, getV_setVF_same, highBitFlag_shiftLeft_one_toNat]

/-! ### The rows that define no flag -/

/-- Settles O37: each is one write of V[x]. -/
theorem loadsCopyTheirOperand : Obligations.LoadsCopyTheirOperand := fun s x y kk =>
  ⟨⟨_, rfl, getV_setV_same s x kk, exec_frame (i := .ldImm x kk) rfl⟩,
    ⟨_, rfl, getV_setV_same s x (s.getV y), exec_frame (i := .ldReg x y) rfl⟩⟩

/-- Settles O38: one write of V[x], which is VF only for x = 15. -/
theorem addImmediateWrapsWithoutAFlag : Obligations.AddImmediateWrapsWithoutAFlag := by
  refine fun s x kk => ⟨_, rfl, ?_, fun hx => getV_setV_other _ _ _ _ hx, exec_frame (i := .addImm x kk) rfl⟩
  rw [getV_setV_same, BitVec.toNat_add]

/-- Settles O39: each is one write of V[x], of a bitwise operation. -/
theorem logicIsBitwiseWithoutAFlag : Obligations.LogicIsBitwiseWithoutAFlag := by
  refine fun s x y => ⟨⟨_, rfl, fun b _ => ?_, exec_frame (i := .orReg x y) rfl⟩,
    ⟨_, rfl, fun b _ => ?_, exec_frame (i := .andReg x y) rfl⟩,
    ⟨_, rfl, fun b _ => ?_, exec_frame (i := .xorReg x y) rfl⟩⟩ <;> rw [getV_setV_same]
  · exact BitVec.getLsbD_or
  · exact BitVec.getLsbD_and
  · exact BitVec.getLsbD_xor

/-- Settles O44: one write of V[x]; Execute finds the tick's input in `rnd` (R120). -/
theorem randomByteIsMaskedByKk : Obligations.RandomByteIsMaskedByKk := by
  refine ⟨fun s x kk => ⟨_, rfl, getV_setV_same s x _, ?_, exec_frame (i := .rnd x kk) rfl⟩, fun s t x kk hi h => ?_⟩
  · rw [getV_setV_same, and_mask_and_not_mask]
  · cases step_executes_next hi h
    exact getV_setV_same s.atExecute x _

end Sys2Proof.Machine
end

section
/-! PROOFS. The index register and the instructions that access memory (spec/43_index_memory.md R200 to R206;
spec/92_eei_decisions.md D4, D12): what each leaves in I, in memory and in the registers, and where a block that does not
fit faults. -/

namespace Sys2Proof.Machine

/-! ### The index register -/

theorem indexFlag_toNat (i : Word) : (indexFlag i).toNat = if i.toNat > 0x0F00 then 1 else 0 := flagByte_toNat _

/-- Settles O45: `nnn` is zero-extended, and a byte times 5 fits in 16 bits. -/
theorem indexLoadsAreExact : Obligations.IndexLoadsAreExact :=
  ⟨fun s nnn => ⟨s.setI (zext16 nnn), rfl, zext16_toNat nnn, exec_frame (i := .ldI nnn) rfl⟩,
    fun s x => ⟨s.setI (glyphAddr (s.getV x)), rfl, glyphAddr_toNat (s.getV x), exec_frame (i := .ldF x) rfl⟩⟩

/-- Settles O46: the flag is of the I just written, and its write leaves I alone. -/
theorem addToIndexWrapsAndFlagsAbove0F00 : Obligations.AddToIndexWrapsAndFlagsAbove0F00 := by
  refine fun s x => ⟨_, rfl, ?_, ?_, exec_frame (i := .addI x) rfl⟩
  · rw [setVF_i, setI_i, BitVec.toNat_add, zext16Byte_toNat]
  · rw [getV_setVF_same, indexFlag_toNat, setVF_i, setI_i]

/-- The writers of I (R23). -/
theorem i_mem_writesPart {i : Instr} (h : Part.i ∈ writesPart i) :
    (∃ nnn, i = .ldI nnn) ∨ (∃ x, i = .addI x) ∨ ∃ x, i = .ldF x := by
  cases i <;> simp_all [writesPart]

/-- Settles O26: I is no part that an instruction accessing memory writes, and what differs after a tick was not kept. -/
theorem memoryInstructionsKeepTheIndex : Obligations.MemoryInstructionsKeepTheIndex := by
  constructor
  · intro s t x y n i hi hx
    have hkept : Part.i ∉ writesPart i := by
      simp only [List.mem_cons, List.not_mem_nil, or_false] at hi
      rcases hi with rfl | rfl | rfl | rfl <;> simp [writesPart]
    exact (exec_frame hx).1 .i hkept
  · intro s t h hne
    rcases step_keeps_or_writes h (p := .i) (by simp [instructionParts]) with hk | ⟨i, hi, hw⟩
    · exact absurd hk hne
    · rcases i_mem_writesPart hw with ⟨nnn, rfl⟩ | ⟨x, rfl⟩ | ⟨x, rfl⟩
      · exact .inl ⟨nnn, hi⟩
      · exact .inr (.inl ⟨x, hi⟩)
      · exact .inr (.inr ⟨x, hi⟩)

/-! ### Stores from I upward -/

/-- A block stored from I that fits: the bytes stand there where memory is canonical, every other address is kept. -/
theorem storeBytes_fromI_fits (s : State) {ws : List Byte} (hfit : s.i.toNat + ws.length ≤ 4096) :
    ∃ t, s.storeBytes (s.effAddr 0) ws = .next t ∧
      (∀ a, a < s.i.toNat ∨ s.i.toNat + ws.length ≤ a → t.peek a = s.peek a) ∧
      (s.MemCanonical → ∀ k (hk : k < ws.length), t.peek (s.i.toNat + k) = ws[k]) := by
  obtain ⟨m, hstore, hkept, hstored⟩ := storeBytes_fits s s.i.toNat ws hfit
  exact ⟨{ s with mem := m }, hstore, hkept, fun hm => (hstored hm).2⟩

/-- R203: each decimal digit of a byte fits in a byte. -/
theorem decimalDigits_toNat (b : Byte) : (decimalDigits b)[0].toNat = b.toNat / 100 ∧
    (decimalDigits b)[1].toNat = b.toNat / 10 % 10 ∧ (decimalDigits b)[2].toNat = b.toNat % 10 := by
  have hb : b.toNat < 256 := b.isLt
  refine ⟨?_, ?_, ?_⟩ <;> exact Nat.mod_eq_of_lt (by omega)

/-- Settles O47: the block is the three digits. -/
theorem bcdStoresThreeDigitsOrFaults : Obligations.BcdStoresThreeDigitsOrFaults := by
  intro s x
  constructor
  · intro hfit
    obtain ⟨t, ht, hkept, hstored⟩ := storeBytes_fromI_fits s (ws := decimalDigits (s.getV x))
      (by rw [decimalDigits_length]; omega)
    obtain ⟨hundreds, tens, ones⟩ := decimalDigits_toNat (s.getV x)
    refine ⟨t, ht, hkept, fun hm => ⟨?_, ?_, ?_⟩, exec_frame (i := .ldB x) ht⟩
    · exact (congrArg BitVec.toNat (hstored hm 0 (by simp))).trans hundreds
    · exact (congrArg BitVec.toNat (hstored hm 1 (by simp))).trans tens
    · exact (congrArg BitVec.toNat (hstored hm 2 (by simp))).trans ones
  · intro hover
    exact storeBytes_overruns s s.i.toNat _ (by simp [decimalDigits]) (by rw [decimalDigits_length]; omega)

/-- Settles O48: the block is the registers 0..x, the k-th byte being V[k]. -/
theorem storeBlockWritesRegistersOrFaults : Obligations.StoreBlockWritesRegistersOrFaults := by
  intro s x
  have hlen : ((regsUpTo x).map s.getV).length = x.val + 1 := by simp
  constructor
  · intro hfit
    obtain ⟨t, ht, hkept, hstored⟩ := storeBytes_fromI_fits s (ws := (regsUpTo x).map s.getV) (by omega)
    refine ⟨t, ht, fun a ha => hkept a (by omega), fun hm k hk => ?_, exec_frame (i := .stRegs x) ht⟩
    rw [hstored hm k (hlen ▸ Nat.lt_succ_of_le hk), List.getElem_map, regsUpTo_getElem]
  · intro hover
    exact storeBytes_overruns s s.i.toNat _ (List.ne_nil_of_length_eq_add_one hlen) (by omega)

/-! ### Loads from I upward -/

/-- Settles O49: the block goes to the registers 0..x, each of which is loaded once. -/
theorem loadBlockReadsRegistersOrFaults : Obligations.LoadBlockReadsRegistersOrFaults := by
  intro s x
  have hlen : (regsUpTo x).length = x.val + 1 := regsUpTo_length x
  constructor
  · intro hfit
    obtain ⟨t, ht, -, hloaded, hkept⟩ := loadRegs_fits s s.i.toNat (regsUpTo x) (regsUpTo_nodup x) (by omega)
    refine ⟨t, ht, fun k hk => ?_, exec_frame (i := .ldRegs x) ht, fun k hk => hkept k ?_⟩
    · simpa using hloaded k.val (hlen ▸ Nat.lt_succ_of_le hk)
    · rw [mem_regsUpTo]
      exact Nat.not_le_of_lt hk
  · intro hover
    exact loadRegs_overruns s s.i.toNat _ (List.ne_nil_of_length_eq_add_one hlen) (by omega)

/-- Settles O50: the store completed, so the block fits and holds V[0..x]; the load reads the same addresses. -/
theorem storeThenLoadRestoresTheRegisters : Obligations.StoreThenLoadRestoresTheRegisters := by
  intro s t u x hm hstore hi hmem hcfg
  obtain ⟨hstores, hfaults⟩ := storeBlockWritesRegistersOrFaults s x
  have hfit : s.i.toNat + x.val ≤ 4095 := by
    by_contra hover
    rw [hfaults (by omega)] at hstore
    cases hstore
  obtain ⟨t', ht', -, hstored, -⟩ := hstores hfit
  obtain rfl : t' = t := Host.Outcome.next.inj (ht'.symm.trans hstore)
  obtain ⟨v, hv, hloaded, hframe, -⟩ := (loadBlockReadsRegistersOrFaults u x).1 (by rwa [hi])
  refine ⟨v, hv, fun k hk => ?_, (loadRegs_mem hv).trans hmem, (hframe.1 .i (by simp)).trans hi⟩
  calc v.getV k
    _ = u.peek (s.i.toNat + k.val) := by rw [hloaded k hk, hi]
    _ = t'.peek (s.i.toNat + k.val) := peek_congr hmem hcfg _
    _ = s.getV k := hstored hm k hk

end Sys2Proof.Machine
end

section
/-! PROOFS. The display instructions (spec/44_display.md R220 to R223; spec/92_eei_decisions.md D4, D8, D9): what 00E0 and
Dxyn leave in each cell, in VF and in CHANGED, and in which ticks CHANGED is 1. -/

namespace Sys2Proof.Machine

/-! ### Clearing the display -/

/-- Settles O52: the display becomes the blank one, and 00E0 writes no other element but CHANGED. -/
theorem clearBlanksEveryCell : Obligations.ClearBlanksEveryCell := fun s =>
  ⟨s.shown Display.blank, rfl, Display.cell_blank, rfl, exec_frame (i := .cls) rfl⟩

/-! ### Drawing a sprite -/

/-- R221: the sprite of n rows, the bytes from I upward. -/
def State.sprite (s : State) (n : Count) : List Byte := (List.range n.val).map fun r => s.peek (s.i.toNat + r)

@[simp] theorem sprite_length (s : State) (n : Count) : (s.sprite n).length = n.val := by simp [State.sprite]

@[simp] theorem sprite_getElem (s : State) (n : Count) {r : Nat} (hr : r < (s.sprite n).length) :
    (s.sprite n)[r] = s.peek (s.i.toNat + r) := by simp [State.sprite]

/-- R63, R73: what Dxyn reads before it draws. -/
theorem readBytes_sprite (s : State) (n : Count) : s.readBytes (s.effAddr 0) n.val =
    if n.val = 0 ∨ s.i.toNat + n.val ≤ 4096 then .ok (s.sprite n)
    else .error (.memReadOutOfRange (s.pc - 2) (max s.i.toNat 4096)) := readBytes_eq s s.i.toNat n.val

/-- R221: the display and the collision flag once the sprite is drawn at the place V[x], V[y] name on entry (D8). -/
def State.drawn (s : State) (x y : Reg) (n : Count) : Canvas :=
  Canvas.drawRows ⟨s.display, false⟩ (s.getV y).toNat (s.getV x).toNat (s.sprite n)

/-- R221, R63: Dxyn shows the drawn display where its sprite fits in memory, and faults elsewhere. -/
theorem exec_drw_eq (s : State) (x y : Reg) (n : Count) : exec (.drw x y n) s =
    if n.val = 0 ∨ s.i.toNat + n.val ≤ 4096 then
      .next ((s.setVF (flagByte (s.drawn x y n).hit)).shown (s.drawn x y n).display)
    else .fault (.memReadOutOfRange (s.pc - 2) (max s.i.toNat 4096)) := by
  change execDrw x y n s = _
  rw [execDrw, readBytes_sprite]
  split_ifs <;> rfl

/-- A draw that completes had its sprite in range and shows the drawn display. -/
theorem exec_drw_next {s t : State} {x y : Reg} {n : Count} (h : exec (.drw x y n) s = .next t) :
    (n.val = 0 ∨ s.i.toNat + n.val ≤ 4096) ∧
      t = (s.setVF (flagByte (s.drawn x y n).hit)).shown (s.drawn x y n).display := by
  rw [exec_drw_eq] at h
  split_ifs at h with hfit
  exact ⟨hfit, (Host.Outcome.next.inj h).symm⟩

theorem flagByte_toNat_le_one (c : Bool) : (flagByte c).toNat ≤ 1 := by cases c <;> decide

theorem flagByte_eq_one_iff (c : Bool) : flagByte c = 1 ↔ c = true := by cases c <;> decide

/-- Settles O53: `drawRows_spec` on the sprite, whose r-th byte is the one at I + r. -/
theorem drawXorsEachSpriteBitOnce : Obligations.DrawXorsEachSpriteBitOnce := by
  intro s x y n
  obtain ⟨hin, hout, hhit⟩ := drawRows_spec (s.sprite n) (by rw [sprite_length]; omega) ⟨s.display, false⟩
    (s.getV y).toNat (s.getV x).toNat
  simp only [sprite_length, sprite_getElem] at hin hout hhit
  constructor
  · intro hfit
    have hexec := (exec_drw_eq s x y n).trans (if_pos hfit)
    refine ⟨_, hexec, fun r j hr hj => hin r hr j hj, fun row col hno => ?_, ?_, ?_, rfl, exec_frame hexec⟩
    · exact hout row col fun r j hr hj hat => hno r j hr hj (by simp [hat, wrapRow, wrapCol])
    · rw [shown_getV, getV_setVF_same]
      exact flagByte_toNat_le_one _
    · rw [shown_getV, getV_setVF_same, flagByte_eq_one_iff]
      simpa [State.drawn, spriteBit, wrapRow, wrapCol] using hhit
  · intro hn hover
    rw [exec_drw_eq, if_neg (by omega)]

/-! ### Drawing twice -/

/-- Settles O54: both draws have one sprite and one place, so each touched cell is XORed twice with one bit; and between
the draws a touched cell under a set bit is the negation of what it was. -/
theorem drawingTwiceRestoresTheDisplay : Obligations.DrawingTwiceRestoresTheDisplay := by
  intro s t u x y n hx hy hst htu
  obtain ⟨hfit, -⟩ := exec_drw_next hst
  obtain ⟨t', ht', hin, hout, -, -, -, hframe⟩ := (drawXorsEachSpriteBitOnce s x y n).1 hfit
  obtain rfl : t' = t := Host.Outcome.next.inj (ht'.symm.trans hst)
  obtain ⟨hparts, hregs, -⟩ := hframe
  have hi : t'.i = s.i := hparts .i (by simp)
  have hpeek : ∀ a, t'.peek a = s.peek a := hparts .mem (by simp)
  have hvx : t'.getV x = s.getV x := hregs x (by simpa using hx)
  have hvy : t'.getV y = s.getV y := hregs y (by simpa using hy)
  obtain ⟨u', hu', hin', hout', -, hflag, -⟩ := (drawXorsEachSpriteBitOnce t' x y n).1 (hi ▸ hfit)
  obtain rfl : u' = u := Host.Outcome.next.inj (hu'.symm.trans htu)
  simp only [hi, hpeek, hvx, hvy] at hin' hout' hflag
  constructor
  · refine Display.ext_cell fun row col => ?_
    by_cases hat : ∃ r j, r < n.val ∧ j < 8 ∧
        row = wrapRow ((s.getV y).toNat + r) ∧ col = wrapCol ((s.getV x).toNat + j)
    · obtain ⟨r, j, hr, hj, rfl, rfl⟩ := hat
      simp only [wrapRow, wrapCol]
      rw [hin' r j hr hj, hin r j hr hj, Bool.xor_assoc, Bool.xor_self, Bool.xor_false]
    · have hno : ∀ r j, r < n.val → j < 8 →
          ¬ (row.val = ((s.getV y).toNat + r) % 32 ∧ col.val = ((s.getV x).toNat + j) % 64) :=
        fun r j hr hj ⟨hrow, hcol⟩ => hat ⟨r, j, hr, hj, Fin.ext hrow, Fin.ext hcol⟩
      rw [hout' row col hno, hout row col hno]
  · rw [hflag]
    refine exists_congr fun r => exists_congr fun j => and_congr_right fun hr => and_congr_right fun hj =>
      and_congr_right fun hbit => ?_
    rw [hin r j hr hj, hbit, Bool.xor_true, Bool.not_eq_true']

/-! ### The output CHANGED -/

/-- R223: a display instruction that completes leaves CHANGED 1. -/
theorem exec_display_changed {i : Instr} {s t : State} (hi : i = .cls ∨ ∃ x y n, i = .drw x y n)
    (h : exec i s = .next t) : t.changed = true := by
  rcases hi with rfl | ⟨x, y, n, rfl⟩
  · cases h; rfl
  · obtain ⟨-, rfl⟩ := exec_drw_next h
    rfl

/-- Settles O29: the latch clears CHANGED, and no instruction but these two writes it. -/
theorem changedFlagMeansADisplayInstructionRan : Obligations.ChangedFlagMeansADisplayInstructionRan := by
  intro s t h
  constructor
  · intro hchanged
    by_contra hno
    have hclear : t.changed = false := step_changed_false h fun i hi =>
      ⟨fun hcls => hno (.inl (hcls ▸ hi)), fun x y n hdrw => hno (.inr ⟨x, y, n, hdrw ▸ hi⟩)⟩
    exact Bool.false_ne_true (hclear.symm.trans hchanged)
  · rintro (hi | ⟨x, y, n, hi⟩)
    · exact exec_display_changed (.inl rfl) (step_executes_next hi h)
    · exact exec_display_changed (.inr ⟨x, y, n, rfl⟩) (step_executes_next hi h)

end Sys2Proof.Machine
end

section
/-! PROOFS. Keypad and timers (spec/45_keypad_timers.md R240 to R245; spec/92_eei_decisions.md D5): a timer counts down over
a run of any length, and what the key skips, the timer moves and the start of a key wait do in every state. -/

namespace Sys2Proof.Machine

/-! ### A timer over a run -/

/-- A number that falls by one, and stays at 0, on every tick meeting `P` falls by `n` over `n` such ticks. -/
theorem runsTo_countsDown {f : State → Nat} {P : State → Prop} {n : Nat} {s t : State}
    (htick : ∀ {u w : State}, step u = .next w → P u → f w = f u - 1)
    (hP : ∀ k u, k < n → RunsTo k s u → P u) (hrun : RunsTo n s t) : f t = f s - n := by
  induction n generalizing s with
  | zero => rw [runsTo_zero.mp hrun, Nat.sub_zero]
  | succ n ih =>
    obtain ⟨w, hstep, hrest⟩ := runsTo_succ.mp hrun
    have hw : ∀ k u, k < n → RunsTo k w u → P u := fun k u hk hu =>
      hP (k + 1) u (Nat.succ_lt_succ hk) (runsTo_succ.mpr ⟨w, hstep, hu⟩)
    have hs : P s := hP 0 s n.succ_pos (runsTo_zero.mpr rfl)
    calc f t
      _ = f w - n := ih hw hrest
      _ = f s - (n + 1) := by rw [htick hstep hs]; omega

/-- Settles O14: each tick of the run counts DT down once. -/
theorem delayTimerFallsByOnePerTickOfARun : Obligations.DelayTimerFallsByOnePerTickOfARun :=
  fun _ _ _ hrun hticks =>
    runsTo_countsDown (f := fun u => u.dt.toNat) (fun h ⟨hw, hno⟩ => step_dt_toNat h hw hno) hticks hrun

/-- R129: BEEP is 1 exactly while ST is not 0. -/
theorem outputs_beep_iff (s : State) : s.outputs.beep = true ↔ 0 < s.st.toNat := decide_eq_true_iff

/-- Settles O15: after `n` ticks ST is what it was less `n`, which is positive exactly when `n` was less. -/
theorem beepSoundsWhileTheSoundTimerLasts : Obligations.BeepSoundsWhileTheSoundTimerLasts := by
  intro n s t hrun hticks
  have hst : t.st.toNat = s.st.toNat - n :=
    runsTo_countsDown (f := fun u => u.st.toNat) (fun h ⟨hw, hno⟩ => step_st_toNat h hw hno) hticks hrun
  rw [outputs_beep_iff, hst, Nat.sub_pos_iff_lt]

/-! ### The key skips -/

/-- R241: where a skip on a released key leaves PC. -/
theorem skipIf_not_pc (s : State) (c : Bool) : (s.skipIf !c).pc = if c then s.pc else s.pc + 2 := by
  cases c <;> simp

/-- R240: Ex9E asks for the key numbered by V[x] and skips when it is down. -/
theorem exec_skp_withKey (x : Reg) (s : State) :
    exec (.skp x) s = s.withKey (s.getV x) fun down => s.skipIf down := rfl

/-- R241: ExA1 asks for the same key and skips when it is up. -/
theorem exec_sknp_withKey (x : Reg) (s : State) :
    exec (.sknp x) s = s.withKey (s.getV x) fun down => s.skipIf !down := rfl

/-- Settles O55: V[x] below 16 numbers a key of the latched vector, and from 16 on it numbers none. -/
theorem keySkipsTestTheNumberedKeyOrFault : Obligations.KeySkipsTestTheNumberedKeyOrFault := by
  intro s x
  rw [exec_skp_withKey, exec_sknp_withKey]
  refine ⟨fun hkey => ?_, fun hout => ⟨withKey_out s hout _, withKey_out s hout _⟩⟩
  exact ⟨⟨_, withKey_in s hkey _, skipIf_pc s _, frame_skipIf s _⟩,
    ⟨_, withKey_in s hkey _, skipIf_not_pc s _, frame_skipIf s _⟩⟩

/-! ### The timer moves and the start of a key wait -/

/-- Settles O56: each is one write, framed by `exec_frame`. -/
theorem timerMovesCopyTheByte : Obligations.TimerMovesCopyTheByte := fun s x =>
  ⟨⟨s.setV x s.dt, rfl, getV_setV_same s x s.dt, exec_frame (i := .ldVxDt x) rfl⟩,
    ⟨{ s with dt := s.getV x }, rfl, rfl, exec_frame (i := .ldDtVx x) rfl⟩,
    ⟨{ s with st := s.getV x }, rfl, rfl, outputs_beep_iff _, exec_frame (i := .ldStVx x) rfl⟩⟩

/-- Settles O57: the two writes, framed by `exec_frame`. -/
theorem keyWaitOnlyRecordsItsRegister : Obligations.KeyWaitOnlyRecordsItsRegister := fun s x =>
  ⟨{ s with waiting := true, waitReg := x }, rfl, rfl, rfl, exec_frame (i := .ldVxK x) rfl⟩

end Sys2Proof.Machine
end

section
/-! PROOFS. Fault-freedom (spec/60_exceptions.md R261, R267; spec/92_eei_decisions.md D3 to D6): an instruction completes
exactly under its own condition of R267, and so does a tick. -/

namespace Sys2Proof.Machine

/-! ### When an instruction completes -/

/-- What completes under a condition and faults without it completes exactly under that condition. -/
theorem completes_iff_of_else_fault {r : Result} {f : Fault} {c : Prop} (hin : c → ∃ t, r = .next t)
    (hout : ¬ c → r = .fault f) : (∃ t, r = .next t) ↔ c := by
  refine ⟨fun ⟨t, ht⟩ => ?_, hin⟩
  by_contra hc
  cases ht.symm.trans (hout hc)

/-- R150, D3. -/
theorem exec_ret_completes_iff (s : State) : (∃ t, exec .ret s = .next t) ↔ 1 ≤ s.sp ∧ s.sp ≤ 16 := by
  constructor
  · rintro ⟨t, ht⟩
    obtain ⟨hsp, -⟩ := exec_ret_next ht
    exact hsp
  · exact fun hsp => ⟨_, exec_ret_of_sp s hsp⟩

/-- R221, D4. -/
theorem exec_drw_completes_iff (s : State) (x y : Reg) (n : Count) :
    (∃ t, exec (.drw x y n) s = .next t) ↔ n.val = 0 ∨ s.i.toNat + n.val - 1 ≤ 4095 := by
  have hfit : n.val = 0 ∨ s.i.toNat + n.val - 1 ≤ 4095 ↔ n.val = 0 ∨ s.i.toNat + n.val ≤ 4096 := by omega
  rw [hfit]
  exact ⟨fun ⟨_, ht⟩ => (exec_drw_next ht).1, fun h => ⟨_, (exec_drw_eq s x y n).trans (if_pos h)⟩⟩

/-- R203, D4. -/
theorem exec_ldB_completes_iff (s : State) (x : Reg) : (∃ t, exec (.ldB x) s = .next t) ↔ s.i.toNat ≤ 4093 := by
  obtain ⟨hfits, hover⟩ := bcdStoresThreeDigitsOrFaults s x
  exact completes_iff_of_else_fault (fun h => (hfits h).imp fun _ ht => ht.1) fun h => hover (Nat.lt_of_not_le h)

/-- R204, D4. -/
theorem exec_stRegs_completes_iff (s : State) (x : Reg) :
    (∃ t, exec (.stRegs x) s = .next t) ↔ s.i.toNat + x.val ≤ 4095 := by
  obtain ⟨hfits, hover⟩ := storeBlockWritesRegistersOrFaults s x
  exact completes_iff_of_else_fault (fun h => (hfits h).imp fun _ ht => ht.1) fun h => hover (Nat.lt_of_not_le h)

/-- R205, D4. -/
theorem exec_ldRegs_completes_iff (s : State) (x : Reg) :
    (∃ t, exec (.ldRegs x) s = .next t) ↔ s.i.toNat + x.val ≤ 4095 := by
  obtain ⟨hfits, hover⟩ := loadBlockReadsRegistersOrFaults s x
  exact completes_iff_of_else_fault (fun h => (hfits h).imp fun _ ht => ht.1) fun h => hover (Nat.lt_of_not_le h)

/-- R240, R241, D5: both key skips ask for a key number. -/
theorem withKey_completes_iff (s : State) (b : Byte) (next : Bool → State) :
    (∃ t, s.withKey b next = .next t) ↔ b.toNat ≤ 15 :=
  completes_iff_of_else_fault (fun h => ⟨_, withKey_in s (Nat.lt_succ_of_le h) next⟩)
    fun h => withKey_out s (Nat.lt_of_not_le h) next

/-- R267 per instruction: seven constructors have a condition, and the others complete in every state. -/
theorem exec_completes_iff_safe (i : Instr) (s : State) : (∃ t, exec i s = .next t) ↔ Safe s i := by
  cases i with
  | ret => exact exec_ret_completes_iff s
  | drw x y n => exact exec_drw_completes_iff s x y n
  | ldB x => exact exec_ldB_completes_iff s x
  | stRegs x => exact exec_stRegs_completes_iff s x
  | ldRegs x => exact exec_ldRegs_completes_iff s x
  | skp x => exact withKey_completes_iff s (s.getV x) fun down => s.skipIf down
  | sknp x => exact withKey_completes_iff s (s.getV x) fun down => s.skipIf !down
  | _ => exact iff_of_true ⟨_, rfl⟩ trivial

/-! ### When a tick completes -/

/-- The latch, the timers and the advance move nothing that `Safe` reads. -/
theorem safe_atExecute (s : State) (i : Instr) : Safe s.atExecute i ↔ Safe s i := by
  cases i <;> exact Iff.rfl

/-- R96, R128: a word completes when the instruction it selects, if any, is safe. -/
theorem execWord_completes_iff (w : Word) (s : State) :
    (∃ t, execWord w s = .next t) ↔ ∀ i, decodeWord w = .ok i → Safe s i := by
  cases hd : decodeWord w with
  | ok i => simp [execWord_ok hd, exec_completes_iff_safe]
  | error r => simp [execWord_error hd]

/-- Settles O18, in the courses of a tick: a latched fault and a fetch out of range fault, a waiting tick completes, and
any other tick is the execution of the word at PC. -/
theorem tickCompletesExactlyWhenFaultFree : Obligations.TickCompletesExactlyWhenFaultFree := by
  intro s
  rcases step_cases s with ⟨f, hf, hs⟩ | ⟨hf, hw, hs⟩ | ⟨hf, hw, hpc, hs⟩ | ⟨hf, hw, hpc, -⟩
  · simp [State.TickSafe, hs, hf]
  · simp [State.TickSafe, hs, hf, hw]
  · have hout : ¬ s.pc.toNat ≤ 0xFFE := Nat.not_le_of_lt hpc
    simp [State.TickSafe, hs, hw, hout]
  · have hin : s.pc.toNat ≤ 0xFFE := Nat.le_of_lt_succ hpc
    rw [step_execWord hf hw hin, execWord_completes_iff]
    simp [State.TickSafe, hf, hw, hin, safe_atExecute]

end Sys2Proof.Machine
end

section
/-! PROOFS. The load port and the end of a run (spec/70_reset_and_hazards.md R304 to R308; spec/92_eei_decisions.md D18,
D20; spec/93_implementation_defined.md U17): a program stopped at a jump to itself stays there for any number of ticks, and
the load port takes an image in the reset state only. -/

namespace Sys2Proof.Machine

/-! ### A stopped program -/

/-- What `n` ticks at a jump to itself leave (R308): every register and element as it was, but CHANGED, KEYS and the two
timers, which are `n` lower. -/
structure StopFrozen (n : Nat) (s t : State) : Prop where
  part    : ∀ p, p ∉ [Part.dt, .st, .changed] → Keeps s t p
  reg     : ∀ x, t.getV x = s.getV x
  fault   : t.fault = s.fault
  dt      : t.dt.toNat = s.dt.toNat - n
  st      : t.st.toNat = s.st.toNat - n
  changed : 0 < n ∨ s.changed = false → t.changed = false

theorem StopFrozen.refl (s : State) : StopFrozen 0 s s :=
  ⟨fun p _ => by cases p <;> simp [Keeps], fun _ => rfl, rfl, rfl, rfl, fun h => h.resolve_left (Nat.lt_irrefl 0)⟩

theorem StopFrozen.trans {m n : Nat} {s t u : State} (h : StopFrozen m s t) (g : StopFrozen n t u) :
    StopFrozen (m + n) s u where
  part p hp := by
    have hst := h.part p hp
    have htu := g.part p hp
    cases p <;> simp_all [Keeps]
  reg x := (g.reg x).trans (h.reg x)
  fault := g.fault.trans h.fault
  dt := by rw [g.dt, h.dt, Nat.sub_sub]
  st := by rw [g.st, h.st, Nat.sub_sub]
  changed hmn := g.changed (n.eq_zero_or_pos.symm.imp_right fun hn => h.changed (by simpa [hn] using hmn))

/-- Being stopped is a matter of what such ticks keep: the fault latch, WAITING, PC and the word at PC. -/
theorem StopFrozen.stoppedAt {n : Nat} {s t : State} {a : Imm12} (h : StopFrozen n s t) (hs : s.StoppedAt a) :
    t.StoppedAt a := by
  obtain ⟨hf, hw, hpc, ha, hword⟩ := hs
  have hpc' : t.pc = s.pc := h.part .pc (by decide)
  have hwait : t.waiting = s.waiting := h.part .waiting (by decide)
  have hword' : t.wordAtPc = s.wordAtPc := by
    rw [wordAtPc_of_peek (h.part .mem (by decide)), hpc', State.wordAtPc]
  exact ⟨h.fault.trans hf, hwait.trans hw, hpc'.trans hpc, ha, by rw [hword', hword]⟩

/-- R308: a stopped machine's tick executes the jump, which puts PC back where it was. -/
theorem step_stoppedAt {s : State} {a : Imm12} (hs : s.StoppedAt a) : step s = .next (s.atExecute.jump s.pc) := by
  obtain ⟨hf, hw, hpc, ha, hword⟩ := hs
  have hle : s.pc.toNat ≤ 0xFFE := by
    rw [hpc]
    exact (zext16_toNat a).trans_le ha
  rw [stepRunsTheDecodedInstruction s (.jp a) ⟨hf, hw, hle, hword⟩, hpc]
  rfl

/-- R120, R151: the latch, the countdown and the jump back move nothing else. -/
theorem stopFrozen_jump (s : State) : StopFrozen 1 s (s.atExecute.jump s.pc) where
  part p hp := by
    cases p with
    | dt | st | changed => simp at hp
    | mem => exact fun _ => rfl
    | _ => rfl
  reg _ := rfl
  fault := rfl
  dt := atExecute_dt_toNat s
  st := atExecute_st_toNat s
  changed _ := rfl

/-- R308: a stopped program runs for any number of ticks and is frozen over all of them. -/
theorem stoppedAt_runs_frozen (n : Nat) {s : State} {a : Imm12} (hs : s.StoppedAt a) :
    ∃ t, RunsTo n s t ∧ StopFrozen n s t := by
  induction n generalizing s with
  | zero => exact ⟨s, runsTo_zero.mpr rfl, .refl s⟩
  | succ n ih =>
    have htick := stopFrozen_jump s
    obtain ⟨t, hrun, hfrozen⟩ := ih (htick.stoppedAt hs)
    exact ⟨t, runsTo_succ.mpr ⟨_, step_stoppedAt hs, hrun⟩, Nat.add_comm 1 n ▸ htick.trans hfrozen⟩

/-- Settles O60, by `stoppedAt_runs_frozen`, the induction on the number of ticks. -/
theorem stoppedProgramStaysStopped : Obligations.StoppedProgramStaysStopped := by
  intro n s a hs
  obtain ⟨t, hrun, hfrozen⟩ := stoppedAt_runs_frozen n hs
  have ⟨hpart, hreg, _, hdt, hst, hchanged⟩ := hfrozen
  exact ⟨t, hrun, hfrozen.stoppedAt hs, hreg, hpart .i (by decide), hpart .sp (by decide), hpart .stack (by decide),
    hpart .mem (by decide), hpart .display (by decide), hpart .waitReg (by decide), hdt, hst,
    fun hn => hchanged (.inl hn)⟩

/-! ### The load port -/

/-- R305, R306: the launch premise is an image without a flaw. -/
theorem imageFlaw_of_length {image : List Byte} (hpos : 1 ≤ image.length) (hle : image.length ≤ 3584) :
    imageFlaw image = none := by
  rw [imageFlaw, if_neg (by omega), if_pos hle]

/-- R305, D18: an image of more than 3584 bytes is too long. -/
theorem imageFlaw_tooLong {image : List Byte} (h : 3584 < image.length) :
    imageFlaw image = some (.tooLong image.length) := by
  rw [imageFlaw, if_neg (by omega), if_neg (by omega)]

/-- The fresh states are the reset states, whatever inputs are scheduled (R304). -/
theorem isFresh_iff {s : State} : s.isFresh = true ↔ ∃ cfg ins, s = { State.resetWith cfg with inputs := ins } := by
  constructor
  · exact fun h => ⟨s.cfg, s.inputs, of_decide_eq_true h⟩
  · rintro ⟨cfg, ins, rfl⟩
    exact decide_eq_true rfl

/-- U17: an image without a flaw is refused by a machine that is not fresh. -/
theorem load_not_fresh {image : List Byte} {s : State} (hflaw : imageFlaw image = none) (hs : s.isFresh = false) :
    State.load image s = .refused .loadAfterReset := by
  simp [State.load, hflaw, hs]

/-- Settles O58: the port takes a flawless image in a fresh machine and nothing else, and the machine it leaves is not
fresh. -/
theorem loadPlacesTheImageAt0x200OrRefuses : Obligations.LoadPlacesTheImageAt0x200OrRefuses := by
  refine ⟨fun cfg ins image hpos hle => ?_, fun s => rfl, fun s image hlong => ?_, fun s image hpos hle hs => ?_,
    fun s => isFresh_iff, fun s t first second h hpos hle => ?_⟩
  · have hfit : 0x200 + image.length ≤ 4096 := by omega
    exact ⟨_, load_next_iff.mpr ⟨imageFlaw_of_length hpos hle, isFresh_iff.mpr ⟨cfg, ins, rfl⟩, rfl⟩,
      Memory.read_writeBlock Memory.wf_nil _ _ hfit, fun _ => Memory.read_writeBlock_outside _ _ _, rfl,
      Memory.wf_writeBlock Memory.wf_nil _ _ hfit⟩
  · simp [State.load, imageFlaw_tooLong hlong]
  · exact load_not_fresh (imageFlaw_of_length hpos hle) hs
  · obtain ⟨-, -, rfl⟩ := load_next_iff.mp h
    exact load_not_fresh (imageFlaw_of_length hpos hle) (isFresh_of_loaded rfl)

end Sys2Proof.Machine
end
